-- ==== Sys2Proof/Word.lean ====
section
/-! DEFINITION. The two data types of the block and the marker beside a stream item
(spec/00_scope.md R4, R5, R9; spec/30_encoding.md R50, R51, R53). -/

namespace Sys2Proof

/-- A LinearSample: 16 bits, two's complement; its signed value is `BitVec.toInt` (R5, R50). -/
abbrev LinearSample := BitVec 16

/-- A CompandedByte: 8 bits, unsigned (R5, R51). -/
abbrev CompandedByte := BitVec 8

/-- How a LinearSample lies in two bytes of a byte buffer (R4 `BYTE_ORDER`, R34). -/
inductive ByteOrder where
  /-- the byte at the lower index holds bits 7:0 -/
  | little
  /-- the byte at the lower index holds bits 15:8 -/
  | big
deriving DecidableEq, Repr

/-- An item of a stream port: the data value with the one-bit `first` marker beside it (R53). -/
structure Marked (α : Type) where
  /-- 1 on index 0 of a buffer -/
  first : Bool
  data  : α
deriving DecidableEq, Repr

end Sys2Proof
end

