-- ==== Sys2Proof/Syntax.lean ====
section
/-! DEFINITION. The four operations (spec/30_encoding.md R56; spec/opcode_table.json) and the items that
the ports of the block carry (R53). -/

namespace Sys2Proof

/-- One constructor per row of the operation table. DNENC and DECUP are stream units: the operation of one of
their steps is to take ONE item of a buffer, `dn.accept(first, x)` and `up.accept(first, b)` in the syntax of R59
(log entry 15; the whole-buffer functions of R96 and R111 are in Machine/Buffer.lean). -/
inductive Instr where
  /-- `ENC x` (uid 00, 40_mulaw_encode.md R70) -/
  | enc (x : LinearSample)
  /-- `DEC b` (uid 01, 41_mulaw_decode.md R85) -/
  | dec (b : CompandedByte)
  /-- `DNENC`, one item (uid 10, 42_downsample_encode.md R96, R99) -/
  | dnenc (first : Bool) (x : LinearSample)
  /-- `DECUP`, one item (uid 11, 43_decode_upsample.md R111, R113) -/
  | decup (first : Bool) (b : CompandedByte)
deriving DecidableEq, Repr

/-- An item as the wires of an input port carry it, each with the width of R53. Which operation is performed is
decided by the port the item arrives on (10_state.md R11), so the port is the constructor. -/
inductive PortItem where
  /-- `enc_in[15:0]` -/
  | encIn (w : BitVec 16)
  /-- `dec_in[7:0]` -/
  | decIn (w : BitVec 8)
  /-- `dn_in`: bit 16 is `first`, bits 15:0 are `pcm` -/
  | dnIn (w : BitVec 17)
  /-- `up_in`: bit 8 is `first`, bits 7:0 are `byte` -/
  | upIn (w : BitVec 9)
deriving DecidableEq, Repr

/-- The 2-bit unit identifier of R56: a tag of the operation table, no field of any port. -/
def PortItem.uid : PortItem → Nat
  | .encIn _ => 0
  | .decIn _ => 1
  | .dnIn _ => 2
  | .upIn _ => 3

end Sys2Proof
end

