-- ==== Sys2Proof/Decode.lean ====
section
/-! DEFINITION. From the wires of a port to an instruction and back (spec/30_encoding.md R53, R56, R57), and the
table words that number an item together with its unit (log entry 11). -/

namespace Sys2Proof

/-- Decoding an item: the port selects the operation (10_state.md R11) and the item splits into its fields (R53).
It has no invalid verdict to give (R57). -/
def decode : PortItem → Instr
  | .encIn w => .enc w
  | .decIn w => .dec w
  | .dnIn w => .dnenc (w.getLsbD 16) (w.extractLsb' 0 16)
  | .upIn w => .decup (w.getLsbD 8) (w.extractLsb' 0 8)

/-- The item that a host drives for an instruction: `{first, pcm}` and `{first, byte}` (R53). -/
def encode : Instr → PortItem
  | .enc x => .encIn x
  | .dec b => .decIn b
  | .dnenc f x => .dnIn (BitVec.ofBool f ++ x)
  | .decup f b => .upIn (BitVec.ofBool f ++ b)

/-- The number on the wires of an item. -/
def PortItem.wires : PortItem → Nat
  | .encIn w => w.toNat
  | .decIn w => w.toNat
  | .dnIn w => w.toNat
  | .upIn w => w.toNat

/-- The table word of an item, `{item, uid[1:0]}`: the unit identifier in bits 1:0, where spec/opcode_table.json has
it, and the item's bits from bit 2 up. DESIGN CHOICE (log entry 11): the hardware has no such word, the uid "is not a
field of any port or word in the hardware" (R56). -/
def PortItem.tableWord (p : PortItem) : Nat := p.wires * 4 + p.uid

/-- Why a number or a list of bytes is no table word. -/
inductive DecodeReject where
  /-- a bit is set that no wire of the selected unit's port carries (every item has the one width of R53, R58) -/
  | noSuchWire
  /-- fewer than the three bytes that hold a table word -/
  | tooShort
deriving DecidableEq, Repr

/-- Reading a table word: bits 1:0 select the unit, the rest is the item and must fit the port. -/
def readTableWord (w : Nat) : Except DecodeReject PortItem :=
  let item := w / 4
  match w % 4 with
  | 0 => if item < 2 ^ 16 then .ok (.encIn (BitVec.ofNat 16 item)) else .error .noSuchWire
  | 1 => if item < 2 ^ 8 then .ok (.decIn (BitVec.ofNat 8 item)) else .error .noSuchWire
  | 2 => if item < 2 ^ 17 then .ok (.dnIn (BitVec.ofNat 17 item)) else .error .noSuchWire
  | _ => if item < 2 ^ 9 then .ok (.upIn (BitVec.ofNat 9 item)) else .error .noSuchWire

/-- The table words of a list of bytes, three bytes each, the byte with bits 7:0 first: the first instruction and the
bytes after it. Total on any bytes. -/
def decodeBytes : List (BitVec 8) → Except DecodeReject (Instr × List (BitVec 8))
  | b0 :: b1 :: b2 :: rest =>
    match readTableWord (b0.toNat + 256 * b1.toNat + 65536 * b2.toNat) with
    | .ok p => .ok (decode p, rest)
    | .error e => .error e
  | _ => .error .tooShort

/-- The three bytes of an instruction's table word. -/
def encodeBytes (i : Instr) : List (BitVec 8) :=
  let w := (encode i).tableWord
  [BitVec.ofNat 8 w, BitVec.ofNat 8 (w / 256), BitVec.ofNat 8 (w / 65536)]

/-- The instruction of a table word of `nbits` bits; bits above are 0. -/
def decodeTableWord (nbits w : Nat) : Option Instr :=
  match readTableWord (w % 2 ^ nbits) with
  | .ok p => some (decode p)
  | .error _ => none

end Sys2Proof
end

