-- ==== Sys2Proof/Machine/Tables.lean ====
section
/-! DEFINITION. The values of the build's constants (spec/00_scope.md R4), as spec/40_mulaw_encode.md R72, R73
and spec/41_mulaw_decode.md R86 give them. They are the spec's decisions D1 to D4 (log entries 1 and 2).
Config.hw is made of them. -/

namespace Sys2Proof.Machine

/-- `CLIP`, the magnitude clamp (R4, R72). -/
def clipValue : Nat := 32635

/-- `ENC_BIAS`, added to the clamped magnitude (R72; 90_conflicts.md C1). -/
def encBiasValue : Nat := 132

/-- `BYTE_ORDER` (R34; 90_conflicts.md C3). -/
def byteOrderValue : ByteOrder := .little

/-- `EncodeTable`, by the counts of the table in R73. -/
def encodeTableValues : List (BitVec 3) :=
  List.replicate 2 0 ++ List.replicate 2 1 ++ List.replicate 4 2 ++ List.replicate 8 3 ++
  List.replicate 16 4 ++ List.replicate 32 5 ++ List.replicate 64 6 ++ List.replicate 128 7

/-- `DecodeTable`, rows 0x00 to 0x70 of R86 as printed, signed decimal. -/
def decodeTableLowRows : List Int :=
  [-32124, -31100, -30076, -29052, -28028, -27004, -25980, -24956, -23932, -22908, -21884, -20860, -19836, -18812, -17788, -16764] ++
  [-15996, -15484, -14972, -14460, -13948, -13436, -12924, -12412, -11900, -11388, -10876, -10364, -9852, -9340, -8828, -8316] ++
  [-7932, -7676, -7420, -7164, -6908, -6652, -6396, -6140, -5884, -5628, -5372, -5116, -4860, -4604, -4348, -4092] ++
  [-3900, -3772, -3644, -3516, -3388, -3260, -3132, -3004, -2876, -2748, -2620, -2492, -2364, -2236, -2108, -1980] ++
  [-1884, -1820, -1756, -1692, -1628, -1564, -1500, -1436, -1372, -1308, -1244, -1180, -1116, -1052, -988, -924] ++
  [-876, -844, -812, -780, -748, -716, -684, -652, -620, -588, -556, -524, -492, -460, -428, -396] ++
  [-372, -356, -340, -324, -308, -292, -276, -260, -244, -228, -212, -196, -180, -164, -148, -132] ++
  [-120, -112, -104, -96, -88, -80, -72, -64, -56, -48, -40, -32, -24, -16, -8, 0]

/-- `DecodeTable`, rows 0x80 to 0xF0 of R86 as printed, signed decimal. -/
def decodeTableHighRows : List Int :=
  [32124, 31100, 30076, 29052, 28028, 27004, 25980, 24956, 23932, 22908, 21884, 20860, 19836, 18812, 17788, 16764] ++
  [15996, 15484, 14972, 14460, 13948, 13436, 12924, 12412, 11900, 11388, 10876, 10364, 9852, 9340, 8828, 8316] ++
  [7932, 7676, 7420, 7164, 6908, 6652, 6396, 6140, 5884, 5628, 5372, 5116, 4860, 4604, 4348, 4092] ++
  [3900, 3772, 3644, 3516, 3388, 3260, 3132, 3004, 2876, 2748, 2620, 2492, 2364, 2236, 2108, 1980] ++
  [1884, 1820, 1756, 1692, 1628, 1564, 1500, 1436, 1372, 1308, 1244, 1180, 1116, 1052, 988, 924] ++
  [876, 844, 812, 780, 748, 716, 684, 652, 620, 588, 556, 524, 492, 460, 428, 396] ++
  [372, 356, 340, 324, 308, 292, 276, 260, 244, 228, 212, 196, 180, 164, 148, 132] ++
  [120, 112, 104, 96, 88, 80, 72, 64, 56, 48, 40, 32, 24, 16, 8, 0]

/-- `DecodeTable` as 16-bit two's complement patterns (R15, R86). -/
def decodeTableValues : List LinearSample :=
  (decodeTableLowRows ++ decodeTableHighRows).map (BitVec.ofInt 16)

end Sys2Proof.Machine
end

