-- ==== Sys2Proof/Config.lean ====
section
/-! DEFINITION. What the build of the block fixes (spec/00_scope.md R4, spec/10_state.md R14 to R16, R25) and the
two values the spec leaves open. No step of the machine changes a configuration. -/

namespace Sys2Proof

/-- The named parameters of R4. The codec and the byte-buffer view take one as an argument, so that the choice of
values is visible where they are used (93_implementation_defined.md U1 to U4). -/
structure Config where
  /-- `CLIP` -/
  clip : Nat
  /-- `ENC_BIAS` -/
  encBias : Nat
  /-- `EncodeTable`, index 0 first -/
  encodeTable : List (BitVec 3)
  /-- `DecodeTable`, index 0 first -/
  decodeTable : List LinearSample
  /-- `BYTE_ORDER` -/
  byteOrder : ByteOrder
deriving DecidableEq, Repr

/-- This hardware: every parameter at the value of R4, R73 and R86 (log entries 1 and 2). -/
def Config.hw : Config where
  clip := Machine.clipValue
  encBias := Machine.encBiasValue
  encodeTable := Machine.encodeTableValues
  decodeTable := Machine.decodeTableValues
  byteOrder := Machine.byteOrderValue

/-- What `dn_hold` becomes at a reset event: unspecified (70_reset_and_hazards.md R140), so a free value, one for
each value of the counter State.freeIdx (log entry 9). -/
opaque Config.freeDnHold : Nat → CompandedByte

/-- What `up_hold` becomes at a reset event: unspecified (R140), a free value (log entry 9). -/
opaque Config.freeUpHold : Nat → LinearSample

end Sys2Proof
end

