-- ==== Sys2Proof/Machine/Operands.lean ====
section
/-! DEFINITION. The operand slices of the codec (spec/30_encoding.md R50, R51, R54, R55; spec/40_mulaw_encode.md
R71 to R76), on mathematical integers as spec/00_scope.md R6 asks. -/

namespace Sys2Proof.Machine

/-- Step 1: `S`, 0x80 when the sample is negative, else 0; zero is not negative (R71). -/
def signField (x : LinearSample) : Nat := if x.toInt < 0 then 0x80 else 0

/-- Step 2: the mathematical absolute value; 32768 for the pattern 0x8000 (R6, R71). -/
def magnitude (x : LinearSample) : Nat := x.toInt.natAbs

/-- Step 2: the clamp (R72). -/
def clampMagnitude (c : Config) (m : Nat) : Nat := min m c.clip

/-- `g`, the biased magnitude: the clamped magnitude plus `ENC_BIAS` (R72). -/
def biasedMagnitude (c : Config) (x : LinearSample) : Nat := clampMagnitude c (magnitude x) + c.encBias

/-- Step 3: the index of the lookup, `g` shifted right 7 and masked to a byte (R74). -/
def tableIndex (g : Nat) : Nat := (g >>> 7) &&& 0xFF

/-- A read of `EncodeTable`. The index is 0 to 255 by construction (20_memory.md R31), so the default is never read. -/
def encodeEntry (c : Config) (i : Nat) : BitVec 3 := c.encodeTable.getD i 0

/-- Step 3: the segment exponent `E` of a biased magnitude (R70, R74). -/
def segmentExponent (c : Config) (g : Nat) : Nat := (encodeEntry c (tableIndex g)).toNat

/-- Step 4: the mantissa `M` (R75). -/
def mantissa (e g : Nat) : Nat := (g >>> (e + 3)) &&& 0x0F

/-- Step 5: `P = S | (E << 4) | M` (R76). -/
def assemble (s e m : Nat) : Nat := s ||| (e <<< 4) ||| m

/-- A read of `DecodeTable`; the index is a whole byte (41_mulaw_decode.md R87), so the default is never read. -/
def decodeEntry (c : Config) (b : CompandedByte) : LinearSample := c.decodeTable.getD b.toNat 0

/-- Field `S` of the word `P = ~b` behind a byte (R51, R55). -/
def byteSign (b : CompandedByte) : Bool := (~~~b).getLsbD 7

/-- Field `E` of `P = ~b` (R51, R55). -/
def byteExponent (b : CompandedByte) : Nat := ((~~~b).extractLsb' 4 3).toNat

/-- Field `M` of `P = ~b` (R51, R55). -/
def byteMantissa (b : CompandedByte) : Nat := ((~~~b).extractLsb' 0 4).toNat

/-- The sample limited to `-CLIP` to `CLIP` (R78). -/
def clampSample (c : Config) (x : LinearSample) : Int := max (-(c.clip : Int)) (min (c.clip : Int) x.toInt)

/-- The two bytes of a sample in a byte buffer, lower index first (20_memory.md R34). -/
def sampleBytes (c : Config) (p : LinearSample) : BitVec 8 × BitVec 8 :=
  match c.byteOrder with
  | .little => (p.extractLsb' 0 8, p.extractLsb' 8 8)
  | .big => (p.extractLsb' 8 8, p.extractLsb' 0 8)

/-- The sample in two bytes of a byte buffer, the one at the lower index given first (R34). -/
def sampleOfBytes (c : Config) (b0 b1 : BitVec 8) : LinearSample :=
  match c.byteOrder with
  | .little => b1 ++ b0
  | .big => b0 ++ b1

end Sys2Proof.Machine
end

