-- ==== Sys2Proof/Machine/State.lean ====
section
/-! DEFINITION. The state of the block as plain data (spec/10_state.md R17 to R25), what the host will do to it, and
the state right after reset. -/

namespace Sys2Proof.Machine

/-- One event that the host makes at the ports (60_exceptions.md R133(d), R134). -/
inductive HostEvent where
  /-- an item is presented on the input port that `p` names -/
  | item (p : PortItem)
  /-- `rst` is asserted; `coinciding` is what the host presents or drives at the same event, if anything
  (70_reset_and_hazards.md R140, R147; log entries 10 and 20) -/
  | rst (coinciding : Option PortItem)
  /-- the host leaves a gap: nothing is presented -/
  | gap
deriving DecidableEq, Repr

/-- Everything the machine holds. Fields `dnPhase` to `upHold` are the unit state of R19 to R22. -/
structure State where
  /-- `dn_phase`: false (0) when the next accepted sample has an even index in its buffer (R19) -/
  dnPhase   : Bool
  /-- `dn_hold`: the encoded byte that waits for its odd-indexed partner (R20) -/
  dnHold    : CompandedByte
  /-- `dn_ofirst`: true when no byte of the current buffer has been emitted yet (R20) -/
  dnOfirst  : Bool
  /-- `up_pending`: true when the second copy of a decoded sample is still owed (R21) -/
  upPending : Bool
  /-- `up_hold`: the decoded sample whose second copy is owed (R22) -/
  upHold    : LinearSample
  /-- the value the host drives on `enc_in` (R23) -/
  encIn     : LinearSample
  /-- the value the host drives on `dec_in` (R23) -/
  decIn     : CompandedByte
  /-- every item emitted on `dn_out`, oldest first (60_exceptions.md R136) -/
  dnOut     : List (Marked CompandedByte)
  /-- every item emitted on `up_out`, oldest first (R136) -/
  upOut     : List (Marked LinearSample)
  /-- MODEL's own field: the events the host is still going to make, next one first (log entry 3) -/
  host      : List HostEvent
  /-- MODEL's own field: how many reset events have been, the index of the next free values (log entry 9) -/
  freeIdx   : Nat
deriving DecidableEq, Repr

/-- No fault exists: "the fault set of the machine is empty" (60_exceptions.md R125). No one raises one; safe. -/
inductive Fault where
deriving DecidableEq, Repr

/-- Why a step has no meaning. -/
inductive Refusal where
  /-- Raised by an arm of exec whose instruction has no meaning yet; every arm of this model has one, so nothing
  raises it. Safe: a refusal proves nothing about the hardware. -/
  | notModelled (mnemonic : String)
deriving DecidableEq, Repr

/-- The state of the block when it leaves reset (R25, R141): `dn_phase`, `dn_ofirst`, `up_pending` 0, the output
streams empty. `dnHold` and `upHold` are unspecified in the spec and 0 here (DESIGN CHOICE, log entry 8); `encIn` and
`decIn` are the host's to drive and 0 here (DESIGN CHOICE, log entry 7); the host has not begun (log entry 12). -/
def State.reset : State where
  dnPhase := false
  dnHold := 0
  dnOfirst := false
  upPending := false
  upHold := 0
  encIn := 0
  decIn := 0
  dnOut := []
  upOut := []
  host := []
  freeIdx := 0

end Sys2Proof.Machine
end

