-- ==== Sys2Proof/Machine/Ops.lean ====
section
/-! DEFINITION. The shared operations: the two codec functions, emitting an item, the steps of the stream units
(spec/42_downsample_encode.md R99, spec/43_decode_upsample.md R113, R114) and the reset event
(spec/70_reset_and_hazards.md R140). There is no exception to take and none to return from
(spec/60_exceptions.md R125, R128, R129), and no memory to read or write (spec/20_memory.md R30). -/

namespace Sys2Proof.Machine

/-- `encodeSample` (40_mulaw_encode.md R70): all eight bits of `P` complemented (R76). -/
def encodeSample (c : Config) (x : LinearSample) : CompandedByte :=
  let g := biasedMagnitude c x
  let e := segmentExponent c g
  ~~~ BitVec.ofNat 8 (assemble (signField x) e (mantissa e g))

/-- `decodeSample` (41_mulaw_decode.md R85): the direct lookup. -/
def decodeSample (c : Config) (b : CompandedByte) : LinearSample := decodeEntry c b

/-- `emit(dn_out, m)` (00_scope.md R7). -/
def emitDn (m : Marked CompandedByte) (s : State) : State := { s with dnOut := s.dnOut ++ [m] }

/-- `emit(up_out, m)` (00_scope.md R7). -/
def emitUp (m : Marked LinearSample) (s : State) : State := { s with upOut := s.upOut ++ [m] }

/-- The sample that DNENC is given has an even index in its buffer (R99). -/
def evenIndexed (first : Bool) (s : State) : Bool := first || !s.dnPhase

/-- `dn.accept` on an even-indexed sample: its byte waits, nothing is emitted (R99). -/
def dnRetain (first : Bool) (x : LinearSample) (s : State) : State :=
  { s with
    dnHold := encodeSample .hw x
    dnPhase := true
    dnOfirst := first || s.dnOfirst }

/-- `dn.accept` on an odd-indexed sample: it completes a pair and the waiting byte is emitted (R99). -/
def dnComplete (s : State) : State :=
  { emitDn ⟨s.dnOfirst, s.dnHold⟩ s with
    dnPhase := false
    dnOfirst := false }

/-- `dn.accept(first, x)` (R99). -/
def dnAccept (first : Bool) (x : LinearSample) (s : State) : State :=
  if evenIndexed first s then dnRetain first x s else dnComplete s

/-- `up.accept(first, b)` (43_decode_upsample.md R113); it requires `up_pending = 0`. -/
def upAccept (first : Bool) (b : CompandedByte) (s : State) : State :=
  let v := decodeSample .hw b
  { emitUp ⟨first, v⟩ s with
    upHold := v
    upPending := true }

/-- `up.repeat` (R114); it requires `up_pending = 1`. -/
def upRepeat (s : State) : State :=
  { emitUp ⟨false, s.upHold⟩ s with upPending := false }

/-- DECUP's own step where the host presents nothing to it: `up.repeat` if it is owed, else none is enabled. -/
def upOwnStep (s : State) : State := if s.upPending then upRepeat s else s

/-- The host drives `x` on `enc_in`; ENC takes no step and holds no state (10_state.md R17, 60_exceptions.md R133(c)). -/
def driveEncIn (x : LinearSample) (s : State) : State := { s with encIn := x }

/-- The host drives `b` on `dec_in`; DEC takes no step and holds no state (R17, R133(c)). -/
def driveDecIn (b : CompandedByte) (s : State) : State := { s with decIn := b }

/-- What an item that coincides with `rst` does: on a stream port it is not accepted (70_reset_and_hazards.md R140);
on `enc_in` or `dec_in` it is driven all the same, since `rst` wins over an accept or repeat step (60_exceptions.md
R127), ENC and DEC have none (R133(c)), and their outputs follow their inputs (70_reset_and_hazards.md R147). DEDUCED,
log entry 20; that a stream item is not kept for a later event is a DESIGN CHOICE, log entry 10. -/
def driveThroughRst (coinciding : Option PortItem) (s : State) : State :=
  match coinciding with
  | none => s
  | some p =>
    match decode p with
    | .enc x => driveEncIn x s
    | .dec b => driveDecIn b s
    | .dnenc _ _ | .decup _ _ => s

/-- The host presents `p` at the next event. -/
def present (p : PortItem) (s : State) : State := { s with host := .item p :: s.host }

/-- The reset event (70_reset_and_hazards.md R140). The hold registers become unspecified: a free value each
(log entry 9). Nothing is emitted, and items already emitted stay (R142). The input ports are the host's to drive and
no unit state, so they stay (log entry 7). -/
def rstEvent (s : State) : State :=
  { s with
    dnPhase := false
    dnOfirst := false
    upPending := false
    dnHold := Config.freeDnHold s.freeIdx
    upHold := Config.freeUpHold s.freeIdx
    freeIdx := s.freeIdx + 1 }

/-- Port `enc_out`: "a pure function of `enc_in`" (10_state.md R17, R23). -/
def State.encOut (s : State) : CompandedByte := encodeSample .hw s.encIn

/-- Port `dec_out`: "a pure function of `dec_in`" (10_state.md R17, R23). -/
def State.decOut (s : State) : LinearSample := decodeSample .hw s.decIn

end Sys2Proof.Machine
end

