-- ==== Sys2Proof/Machine/Codec.lean ====
section
/-! DEFINITION. The meanings of ENC and DEC. The two units are combinational and hold no state (spec/10_state.md
R17): to perform the operation is to drive the input port; the output port then carries the result
(State.encOut, State.decOut; log entry 6). -/

namespace Sys2Proof.Machine

/-- `ENC x` (40_mulaw_encode.md R70): the host drives `x` on `enc_in`, and `enc_out` carries `encodeSample x`. -/
def execEnc (x : LinearSample) (s : State) : Host.Outcome State Fault Refusal :=
  .next (driveEncIn x s)

/-- `DEC b` (41_mulaw_decode.md R85): the host drives `b` on `dec_in`, and `dec_out` carries `decodeSample b`. -/
def execDec (b : CompandedByte) (s : State) : Host.Outcome State Fault Refusal :=
  .next (driveDecIn b s)

end Sys2Proof.Machine
end

