-- ==== Sys2Proof/Machine/Stream.lean ====
section
/-! DEFINITION. The meanings of DNENC and DECUP for one presented item. -/

namespace Sys2Proof.Machine

/-- `DNENC`, one item (42_downsample_encode.md R99): always accepted. -/
def execDnenc (first : Bool) (x : LinearSample) (s : State) : Host.Outcome State Fault Refusal :=
  .next (dnAccept first x s)

/-- `DECUP`, one item. With `up_pending = 0` it is accepted (43_decode_upsample.md R113). While `up_pending = 1` it is
not accepted and waits (R115): the event is DECUP's own `up.repeat`, and the item is presented again at the next
event (log entry 4). No fault and no loss (93_implementation_defined.md U13). -/
def execDecup (first : Bool) (b : CompandedByte) (s : State) : Host.Outcome State Fault Refusal :=
  if s.upPending then .next (present (encode (.decup first b)) (upRepeat s))
  else .next (upAccept first b s)

end Sys2Proof.Machine
end

