-- ==== Sys2Proof/Machine/Dispatch.lean ====
section
/-! DEFINITION. One arm per constructor of Instr. -/

namespace Sys2Proof.Machine

def exec (i : Instr) (s : State) : Host.Outcome State Fault Refusal :=
  match i with
  | .enc x => Sys2Proof.Machine.execEnc x s
  | .dec b => Sys2Proof.Machine.execDec b s
  | .dnenc first x => Sys2Proof.Machine.execDnenc first x s
  | .decup first b => Sys2Proof.Machine.execDecup first b s

end Sys2Proof.Machine
end

