-- ==== Sys2Proof/Machine/Turn.lean ====
section
/-! DEFINITION. Whose turn it is: what the coming event of the host's script makes the block do (log entries 3, 5,
10 and 20). Step.lean only calls it. -/

namespace Sys2Proof.Machine

/-- What the coming event is. -/
inductive Turn where
  /-- an event that performs no operation of the table; `s` is the state after it -/
  | quiet (s : State)
  /-- the operation `i` is performed in `s`, from which the event has been taken -/
  | run (i : Instr) (s : State)
deriving DecidableEq, Repr

/-- The coming event taken from the host's script. An item is decoded by the port it is on (10_state.md R11). `rst`
wins over a coinciding stream item, which is not accepted (60_exceptions.md R127, 70_reset_and_hazards.md R140) and not
kept (DESIGN CHOICE, log entry 10); a value that the host drives on `enc_in` or `dec_in` at that event is driven all the
same (R133(c), R147; DEDUCED, log entry 20). Where the
host presents nothing, DECUP makes its `up.repeat` if that is owed (43_decode_upsample.md R114, R115), and else
nothing happens (70_reset_and_hazards.md R152). -/
def takeTurn (s : State) : Turn :=
  match s.host with
  | [] => .quiet (upOwnStep s)
  | .gap :: rest => .quiet (upOwnStep { s with host := rest })
  | .rst coinciding :: rest => .quiet (rstEvent (driveThroughRst coinciding { s with host := rest }))
  | .item p :: rest => .run (decode p) { s with host := rest }

end Sys2Proof.Machine
end

