-- ==== Sys2Proof/Machine/Step.lean ====
section
/-! DEFINITION. One step of the block is one event (spec/70_reset_and_hazards.md R151). -/

namespace Sys2Proof.Machine

/-- One event of the host's script. -/
def step (s : State) : Host.Outcome State Fault Refusal :=
  match takeTurn s with
  | .quiet t => .next t
  | .run i t => exec i t

/-- The host presents, at the next event, the item of a table word; a number that is no table word presents nothing
(log entries 11 and 12). -/
def State.withFetchWord (s : State) (nbits w : Nat) : State :=
  match readTableWord (w % 2 ^ nbits) with
  | .ok p => present p s
  | .error _ => s

end Sys2Proof.Machine
end

