-- ==== Sys2Proof/Machine/Buffer.lean ====
section
/-! DEFINITION. The buffer level, which is the normative one (spec/00_scope.md R8): the whole-buffer functions
(spec/42_downsample_encode.md R96, spec/43_decode_upsample.md R111), the byte-buffer view (spec/20_memory.md R34 to
R36), how a host sends a buffer (spec/60_exceptions.md R135) and how it reads the answer (R136). -/

namespace Sys2Proof.Machine

/-- `downsampleAndEncode` (R96, R97): of each pair the even-indexed sample is encoded; an unpaired last sample is
dropped. Nothing is computed from more than one sample (R98). -/
def downsampleAndEncode (c : Config) : List LinearSample → List CompandedByte
  | x :: _ :: rest => encodeSample c x :: downsampleAndEncode c rest
  | _ => []

/-- `decodeAndUpsample` (R111): each byte is decoded and written twice (R112: no interpolation). -/
def decodeAndUpsample (c : Config) : List CompandedByte → List LinearSample
  | b :: rest => decodeSample c b :: decodeSample c b :: decodeAndUpsample c rest
  | [] => []

/-- `MemRead(buf, k, 2)` (R34); none where the unit is incomplete or absent (R36). -/
def memRead (c : Config) (buf : List (BitVec 8)) (k : Nat) : Option LinearSample :=
  match buf[2 * k]?, buf[2 * k + 1]? with
  | some b0, some b1 => some (sampleOfBytes c b0 b1)
  | _, _ => none

/-- `MemWrite(buf, k, 2, p)` (R34); no change where the two bytes are not both in the buffer (log entry 16). -/
def memWrite (c : Config) (buf : List (BitVec 8)) (k : Nat) (p : LinearSample) : List (BitVec 8) :=
  if 2 * k + 1 < buf.length then
    (buf.set (2 * k) (sampleBytes c p).1).set (2 * k + 1) (sampleBytes c p).2
  else buf

/-- The samples in a byte buffer; an odd last byte is dropped (R36(a)). -/
def samplesOfBytes (c : Config) : List (BitVec 8) → List LinearSample
  | b0 :: b1 :: rest => sampleOfBytes c b0 b1 :: samplesOfBytes c rest
  | _ => []

/-- The byte buffer that holds a list of samples (R34, R117). -/
def bytesOfSamples (c : Config) : List LinearSample → List (BitVec 8)
  | p :: rest => (sampleBytes c p).1 :: (sampleBytes c p).2 :: bytesOfSamples c rest
  | [] => []

/-- The outbound path on byte buffers (42_downsample_encode.md R102; 30_encoding.md R60). -/
def outboundBytes (c : Config) (buf : List (BitVec 8)) : List CompandedByte :=
  downsampleAndEncode c (samplesOfBytes c buf)

/-- The inbound path on byte buffers (43_decode_upsample.md R117; 30_encoding.md R60). -/
def inboundBytes (c : Config) (buf : List CompandedByte) : List (BitVec 8) :=
  bytesOfSamples c (decodeAndUpsample c buf)

/-- A buffer as stream items: `first = 1` marks index 0 (30_encoding.md R53, 60_exceptions.md R135(a)). -/
def markBuffer {α : Type} : List α → List (Marked α)
  | [] => []
  | a :: rest => ⟨true, a⟩ :: rest.map fun b => ⟨false, b⟩

/-- The events of a host that sends one buffer to DNENC and meets its duties (R135). -/
def dnBufferEvents (buf : List LinearSample) : List HostEvent :=
  (markBuffer buf).map fun m => .item (encode (.dnenc m.first m.data))

/-- The events of a host that sends one buffer to DECUP and meets its duties (R135). -/
def upBufferEvents (buf : List CompandedByte) : List HostEvent :=
  (markBuffer buf).map fun m => .item (encode (.decup m.first m.data))

/-- An output stream cut at its markers: the items before the first marker, and the buffers after it. -/
def cutAtMarkers {α : Type} : List (Marked α) → List α × List (List α)
  | [] => ([], [])
  | m :: rest =>
    match m.first, cutAtMarkers rest with
    | true, (lead, bufs) => ([], (m.data :: lead) :: bufs)
    | false, (lead, bufs) => (m.data :: lead, bufs)

/-- The output buffers of a stream: each is "the run of emitted items from the one marked `first = 1` up to, not
including, the next one so marked" (R136; log entry 17). -/
def buffersOf {α : Type} (stream : List (Marked α)) : List (List α) := (cutAtMarkers stream).2

end Sys2Proof.Machine
end

