-- ==== Sys2Proof/Machine/Flags.lean ====
section
/-! DEFINITION. The block has no status flags, condition codes or predicates (spec/10_state.md R12). What stands
in their place are the handshake wires of the stream ports (R23): ready, and what an output port carries at
the coming event, with `valid = 1` as `some`. -/

namespace Sys2Proof.Machine

/-- `dn_in_ready`: "always 1" (10_state.md R23, 42_downsample_encode.md R99). -/
def State.dnInReady (_ : State) : Bool := true

/-- `up_in_ready = 1 - up_pending` (10_state.md R23, 43_decode_upsample.md R113). -/
def State.upInReady (s : State) : Bool := !s.upPending

/-- What the host does at the coming event: the head of its script, a gap when the script is empty. -/
def State.coming (s : State) : HostEvent := s.host.headD .gap

/-- Port `dn_out` at the coming event: a byte is emitted when an odd-indexed sample is accepted (R23, R99). -/
def State.dnOutPort (s : State) : Option (Marked CompandedByte) :=
  match s.coming with
  | .item p =>
    match decode p with
    | .dnenc first _ => if evenIndexed first s then none else some ⟨s.dnOfirst, s.dnHold⟩
    | .enc _ | .dec _ | .decup _ _ => none
  | .rst _ | .gap => none

/-- The second copy, if DECUP owes it. -/
def State.owedCopy (s : State) : Option (Marked LinearSample) :=
  if s.upPending then some ⟨false, s.upHold⟩ else none

/-- Port `up_out` at the coming event: the first copy of an accepted byte (R113), or the owed second copy where the
host presents nothing to DECUP that it could take, and DECUP's turn comes (R114, R115; log entries 4 and 5). -/
def State.upOutPort (s : State) : Option (Marked LinearSample) :=
  match s.coming with
  | .item p =>
    match decode p with
    | .decup first b => if s.upInReady then some ⟨first, decodeSample .hw b⟩ else s.owedCopy
    | .enc _ | .dec _ | .dnenc _ _ => none
  | .gap => s.owedCopy
  | .rst _ => none

end Sys2Proof.Machine
end

