-- ==== Sys2Proof/WellFormed.lean ====
section
/-! DEFINITION. Which terms are well-formed: instructions (all of them), configurations (the table shapes of the
spec), and the `first` markers of a buffer's items. -/

namespace Sys2Proof

/-- Every instruction is well-formed: "There are no illegal encodings" (30_encoding.md R57), and the operand widths
are in the types ("the caller never constructs a genuinely invalid sample or byte value", 60_exceptions.md R135(e)).
One arm per constructor, so that a new one cannot slip past. -/
def Instr.wf : Instr → Bool
  | .enc _ => true
  | .dec _ => true
  | .dnenc _ _ => true
  | .decup _ _ => true

/-- No entry is larger than the one after it ("monotonically non-decreasing", 10_state.md R14). -/
def nonDecreasing : List (BitVec 3) → Bool
  | a :: b :: rest => decide (a.toNat ≤ b.toNat) && nonDecreasing (b :: rest)
  | _ => true

/-- The shapes that the spec demands of any choice of constants: both tables have exactly 256 entries (R14, R15),
`EncodeTable` is non-decreasing (R14), and the clamped magnitude plus the bias fits 15 bits (40_mulaw_encode.md R72). -/
def Config.wf (c : Config) : Bool :=
  c.encodeTable.length == 256 && nonDecreasing c.encodeTable && c.decodeTable.length == 256 &&
  decide (c.clip + c.encBias < 32768)

/-- The host's duty of 60_exceptions.md R135(a) for the items of one buffer: `first = 1` on the item of index 0 and
`first = 0` on every other. -/
def markersWf {α : Type} : List (Marked α) → Bool
  | [] => true
  | m :: rest => m.first && rest.all fun n => !n.first

end Sys2Proof
end

