-- ==== Sys2Proof/Safety.lean ====
section
/-! DEFINITION. The terms in which claims speak of a run: the invariant of the unit state, when a run is over, and
what each stream unit alone makes of a script. -/

namespace Sys2Proof.Machine

/-- What the unit state means (spec/10_state.md R20 to R22), as far as the state itself can say it:
a marker that waits belongs to a byte that waits; an owed copy is a copy of the sample emitted last; no sample
outside the decoder's range (spec/41_mulaw_decode.md R88(c)) has ever been emitted. -/
structure UnitInv (s : State) : Prop where
  ofirst_waits : s.dnOfirst = true → s.dnPhase = true
  owed_is_last : s.upPending = true → ∃ m, s.upOut.getLast? = some m ∧ m.data = s.upHold
  emitted_range : ∀ m ∈ s.upOut, -32124 ≤ m.data.toInt ∧ m.data.toInt ≤ 32124

/-- `k` events, one after the other; the same as Host.Core.run on Sys2Proof.core (Laws/Ops.lean). -/
def run : Nat → State → Host.Outcome State Fault Refusal
  | 0, s => .next s
  | k + 1, s =>
    match step s with
    | .next t => run k t
    | .fault r => .fault r
    | .refused r => .refused r

/-- "A run is over when the host has presented all its items and `up_pending = 0`" (60_exceptions.md R136). -/
def State.finished (s : State) : Bool := s.host.isEmpty && !s.upPending

/-- What DNENC makes of one event that concerns it: its own items and `rst`. -/
def dnEvent (s : State) (e : HostEvent) : State :=
  match e with
  | .item p =>
    match decode p with
    | .dnenc first x => dnAccept first x s
    | .enc _ | .dec _ | .decup _ _ => s
  | .rst _ => rstEvent s
  | .gap => s

/-- The samples that DECUP owes for one event of a script without `rst`: both copies of each byte presented to it. -/
def upAnswers : HostEvent → List (Marked LinearSample)
  | .item p =>
    match decode p with
    | .decup first b => [⟨first, decodeSample .hw b⟩, ⟨false, decodeSample .hw b⟩]
    | .enc _ | .dec _ | .dnenc _ _ => []
  | .rst _ | .gap => []

/-- The event is a `rst`. -/
def HostEvent.isRst : HostEvent → Bool
  | .rst _ => true
  | .item _ | .gap => false

/-- Two states that no port can tell apart: they differ at most in what a hold register holds while its value "is
meaningless and no rule reads it" (10_state.md R20, R22), and in the index of the next free values. -/
structure Indistinguishable (s t : State) : Prop where
  dnPhase   : t.dnPhase = s.dnPhase
  dnHold    : s.dnPhase = true → t.dnHold = s.dnHold
  dnOfirst  : t.dnOfirst = s.dnOfirst
  upPending : t.upPending = s.upPending
  upHold    : s.upPending = true → t.upHold = s.upHold
  encIn     : t.encIn = s.encIn
  decIn     : t.decIn = s.decIn
  dnOut     : t.dnOut = s.dnOut
  upOut     : t.upOut = s.upOut
  host      : t.host = s.host

end Sys2Proof.Machine
end

