-- ==== Sys2Proof/Certificates/Slice0/Obligations.lean ====
section
/-! DEFINITION. The statements for the provers. Rule numbers are those of spec/. -/

open Sys2Proof Sys2Proof.Machine

/-! ### ENC and DEC -/

/-- Derived from R70: `ENC x` completes in every state, writes nothing but the port it drives, and `enc_out` then carries the byte
of the rule's pseudocode, here with quotients and remainders for its shifts and masks. `CLIP` and `ENC_BIAS` are the
numbers 32635 and 132; the table is the configuration's. That the instruction is the host driving `enc_in` is log
entry 6. -/
def Obligations.EncDrivesThePseudocodeByte : Prop :=
  ∀ (x : LinearSample) (s : State),
    exec (.enc x) s = .next { s with encIn := x } ∧
    let sign := if x.toInt < 0 then 128 else 0
    let mag := x.toInt.natAbs
    let clamped := min mag 32635
    let g := clamped + 132
    let e := (Config.hw.encodeTable.getD (g / 128 % 256) 0).toNat
    let m := g / 2 ^ (e + 3) % 16
    (State.encOut { s with encIn := x }).toNat = 255 - (sign + 16 * e + m)

/-- Derived from R85: `DEC b` completes in every state, writes nothing but the port it drives, and `dec_out` then carries the
entry of `DecodeTable` at index `b`, which exists for every byte. That the instruction is the host driving `dec_in` is
log entry 6. -/
def Obligations.DecDrivesTheTableEntry : Prop :=
  ∀ (b : CompandedByte) (s : State),
    exec (.dec b) s = .next { s with decIn := b } ∧
    Config.hw.decodeTable[b.toNat]? = some (State.decOut { s with decIn := b })

/-- R73 (the contents are the spec's decision D2): the contents of `EncodeTable`: 256 entries, entry 0 is 0, entry `i` is `floor(log2 i)`, non-decreasing. -/
def Obligations.EncodeTableIsFloorLog2 : Prop :=
  Config.hw.encodeTable.length = 256 ∧
  (encodeEntry .hw 0).toNat = 0 ∧
  (∀ i : Nat, 1 ≤ i → i ≤ 255 → (encodeEntry .hw i).toNat = Nat.log2 i) ∧
  (∀ i : Nat, i < 255 → (encodeEntry .hw i).toNat ≤ (encodeEntry .hw (i + 1)).toNat)

/-- R86: `DecodeTable` has 256 entries and every entry is the value of the rule's formula, in both forms that the rule
gives it. (The contents are the spec's decision D3.) -/
def Obligations.DecodeTableIsTheFormula : Prop :=
  Config.hw.decodeTable.length = 256 ∧
  ∀ b : CompandedByte,
    let u := 255 - b.toNat
    let sign := u / 128
    let e := u / 16 % 8
    let m := u % 16
    let t : Int := (8 * m + 132) * 2 ^ e
    (decodeSample .hw b).toInt = (if sign = 0 then t - 132 else 132 - t) ∧
    132 ≤ t ∧ t ≤ 32256 ∧
    ((decodeSample .hw b).toInt.natAbs : Int) = (2 * m + 33) * 2 ^ (e + 2) - 132

/-- Derived from R88, which the spec marks as its own inference from R86: exact sign symmetry, the two bytes that decode
to zero, all other entries distinct, the range, and the strict order within each sign. -/
def Obligations.DecodeTableSymmetryRangeOrder : Prop :=
  (∀ b : CompandedByte, (decodeSample .hw (b ^^^ 0x80)).toInt = -(decodeSample .hw b).toInt) ∧
  (∀ b : CompandedByte, decodeSample .hw b = 0 ↔ b = 0xFF ∨ b = 0x7F) ∧
  (∀ a b : CompandedByte, a ≠ 0x7F → b ≠ 0x7F → decodeSample .hw a = decodeSample .hw b → a = b) ∧
  (∀ b : CompandedByte, -32124 ≤ (decodeSample .hw b).toInt ∧ (decodeSample .hw b).toInt ≤ 32124) ∧
  (∀ a b : CompandedByte, 0x80 ≤ a.toNat → a.toNat < b.toNat →
    (decodeSample .hw b).toInt < (decodeSample .hw a).toInt) ∧
  (∀ a b : CompandedByte, b.toNat ≤ 0x7F → a.toNat < b.toNat →
    (decodeSample .hw a).toInt < (decodeSample .hw b).toInt)

/-- R31: no index can be out of range: the computed index of `EncodeTable` is 0 to 255 for any sample, every byte is an
index of `DecodeTable`, and both tables have an entry at every such index. -/
def Obligations.NoTableIndexOutOfRange : Prop :=
  (∀ x : LinearSample, tableIndex (biasedMagnitude .hw x) ≤ 255) ∧
  (∀ i : Nat, i ≤ 255 → i < Config.hw.encodeTable.length) ∧
  (∀ b : CompandedByte, b.toNat < Config.hw.decodeTable.length)

/-- Derived from R77, which the spec marks as its own inference: the biased magnitude lies in 132 to 32767, the exponent
is the position of its leading one less 7, the mantissa is the four bits below it, and the pair names the cell of
`2^(E+3)` consecutive magnitudes that the sample's lies in. -/
def Obligations.SegmentCellOfEverySample : Prop :=
  ∀ x : LinearSample,
    let g := biasedMagnitude .hw x
    let e := segmentExponent .hw g
    let m := mantissa e g
    132 ≤ g ∧ g ≤ 32767 ∧ e + 7 = Nat.log2 g ∧
    (16 + m) * 2 ^ (e + 3) ≤ g ∧ g < (17 + m) * 2 ^ (e + 3)

/-- Derived from R51, whose field-by-field form the spec marks as its own inference: bit 7 of the byte is 1 exactly for a
sample that is not negative, bits 6:4 are `7 - E`, bits 3:0 are `15 - M`; and the fields recovered from the byte as R55
recovers them are the sign, `E` and `M`. -/
def Obligations.FieldsOfTheEncodedByte : Prop :=
  ∀ x : LinearSample,
    let b := encodeSample .hw x
    let g := biasedMagnitude .hw x
    let e := segmentExponent .hw g
    b.getLsbD 7 = decide (0 ≤ x.toInt) ∧
    b.toNat / 16 % 8 + e = 7 ∧
    b.toNat % 16 + mantissa e g = 15 ∧
    byteSign b = decide (x.toInt < 0) ∧ byteExponent b = e ∧ byteMantissa b = mantissa e g

/-- Derived from R79 (the spec's own inference from R70 to R76): every sample of magnitude 32635 or more, -32768 among
them, has the byte of the largest magnitude of its sign. -/
def Obligations.LargeMagnitudesAreClamped : Prop :=
  ∀ x : LinearSample, 32635 ≤ x.toInt.natAbs →
    encodeSample .hw x = if x.toInt < 0 then 0x00 else 0x80

/-- Derived from R78(a) (law of the source's §8, which the spec derives for its tables): decoding an encoded sample gives
the clamped sample within half the quantization step of its segment, and the magnitudes differ within the stated
one-sided bounds. -/
def Obligations.RoundTripWithinHalfAStep : Prop :=
  ∀ x : LinearSample,
    let y := (decodeSample .hw (encodeSample .hw x)).toInt
    let c := clampSample .hw x
    let half : Int := 2 ^ (segmentExponent .hw (biasedMagnitude .hw x) + 2)
    (y - c).natAbs ≤ half ∧
    -half ≤ (c.natAbs : Int) - y.natAbs ∧
    (c.natAbs : Int) - y.natAbs ≤ half - 1

/-- Derived from R78(b): of two samples of equal sign, the one of smaller magnitude decodes to no larger magnitude. -/
def Obligations.EncodeIsMagnitudeMonotonic : Prop :=
  ∀ x1 x2 : LinearSample, (x1.toInt < 0 ↔ x2.toInt < 0) → x1.toInt.natAbs < x2.toInt.natAbs →
    (decodeSample .hw (encodeSample .hw x1)).toInt.natAbs ≤ (decodeSample .hw (encodeSample .hw x2)).toInt.natAbs

/-- Derived from R78(d): a sample and its negative give bytes that differ only in bit 7; so do -32768 and 32767, whose
clamped magnitudes are equal. -/
def Obligations.EncodeSignSymmetry : Prop :=
  (∀ x : LinearSample, x ≠ 0 → x ≠ 0x8000 → encodeSample .hw x ^^^ encodeSample .hw (-x) = 0x80) ∧
  encodeSample .hw 0x8000 ^^^ encodeSample .hw 0x7FFF = 0x80

/-- Derived from R78(e) and R77: encoding a decoded byte gives the byte back, but for 0x7F, which gives 0xFF; and every
byte is the byte of some sample. -/
def Obligations.EncodeAfterDecode : Prop :=
  (∀ b : CompandedByte, encodeSample .hw (decodeSample .hw b) = if b = 0x7F then 0xFF else b) ∧
  (∀ b : CompandedByte, ∃ x : LinearSample, encodeSample .hw x = b)

/-- Derived from R17 (ENC and DEC have no state): the outputs depend on the inputs alone, and ENC and DEC leave both
stream units, both output streams and the host's script as they are. -/
def Obligations.CodecUnitsHoldNoState : Prop :=
  (∀ s t : State, s.encIn = t.encIn → s.encOut = t.encOut) ∧
  (∀ s t : State, s.decIn = t.decIn → s.decOut = t.decOut) ∧
  (∀ (i : Instr) (s t : State), ((∃ x, i = .enc x) ∨ ∃ b, i = .dec b) → exec i s = .next t →
    t.dnPhase = s.dnPhase ∧ t.dnHold = s.dnHold ∧ t.dnOfirst = s.dnOfirst ∧ t.upPending = s.upPending ∧
    t.upHold = s.upHold ∧ t.dnOut = s.dnOut ∧ t.upOut = s.upOut ∧ t.host = s.host ∧ t.freeIdx = s.freeIdx) ∧
  (∀ (x : LinearSample) (s t : State), exec (.enc x) s = .next t → t.decIn = s.decIn) ∧
  (∀ (b : CompandedByte) (s t : State), exec (.dec b) s = .next t → t.encIn = s.encIn)

/-! ### DNENC -/

/-- R99: `dn.accept` completes in every state, the unit is always ready, and the next state is the rule's: an
even-indexed sample is encoded and waits, an odd-indexed one emits the waiting byte with its marker. -/
def Obligations.DnencAcceptStep : Prop :=
  ∀ (first : Bool) (x : LinearSample) (s : State),
    s.dnInReady = true ∧
    (first = true ∨ s.dnPhase = false →
      exec (.dnenc first x) s = .next { s with
        dnHold := encodeSample .hw x
        dnPhase := true
        dnOfirst := if first then true else s.dnOfirst }) ∧
    (first = false → s.dnPhase = true →
      exec (.dnenc first x) s = .next { s with
        dnOut := s.dnOut ++ [⟨s.dnOfirst, s.dnHold⟩]
        dnPhase := false
        dnOfirst := false })

/-- Derived from R40 and R99: the frame of DNENC. Nothing of DECUP, of the codec's ports or of the host changes. -/
def Obligations.DnencLeavesTheRestAlone : Prop :=
  ∀ (first : Bool) (x : LinearSample) (s t : State), exec (.dnenc first x) s = .next t →
    t.upPending = s.upPending ∧ t.upHold = s.upHold ∧ t.upOut = s.upOut ∧ t.encIn = s.encIn ∧
    t.decIn = s.decIn ∧ t.host = s.host ∧ t.freeIdx = s.freeIdx

/-- R96: the buffer-level meaning: `floor(N/2)` bytes, byte `j` the encoding of sample `2j`. -/
def Obligations.DownsampleEncodesEvenSamples : Prop :=
  ∀ (c : Config) (buf : List LinearSample),
    (downsampleAndEncode c buf).length = buf.length / 2 ∧
    ∀ j, j < buf.length / 2 →
      (downsampleAndEncode c buf)[j]? = (buf[2 * j]?).map (encodeSample c)

/-- R97: with an odd sample count the unpaired last sample is dropped, whatever it is. -/
def Obligations.OddCountDropsTheLastSample : Prop :=
  ∀ (c : Config) (buf : List LinearSample) (x : LinearSample), buf.length % 2 = 0 →
    downsampleAndEncode c (buf ++ [x]) = downsampleAndEncode c buf ∧
    (downsampleAndEncode c (buf ++ [x])).length = ((buf ++ [x]).length - 1) / 2

/-- Derived from R96 and R98: buffers of one length that agree at the even indices give the same bytes. -/
def Obligations.OddSamplesHaveNoInfluence : Prop :=
  ∀ (c : Config) (a b : List LinearSample), a.length = b.length → (∀ k, a[2 * k]? = b[2 * k]?) →
    downsampleAndEncode c a = downsampleAndEncode c b

/-- Derived from R101 (the spec's own induction from R96, R97, R99): from ANY state, the `N` items of one buffer take
`N` steps, emit exactly the bytes of the buffer-level function, the first of them marked, and leave `dn_phase` and
`dn_ofirst` as the rule says; everything else is unchanged. That the items stand in a script in State, one to an
instruction, is the model's choice (log entries 3 and 15). -/
def Obligations.DnencBufferRunRefinesR96 : Prop :=
  ∀ (s : State) (buf : List LinearSample) (rest : List HostEvent), buf ≠ [] →
    s.host = dnBufferEvents buf ++ rest →
    ∃ hold, run buf.length s = .next { s with
      host := rest
      dnOut := s.dnOut ++ markBuffer (downsampleAndEncode .hw buf)
      dnHold := hold
      dnPhase := decide (buf.length % 2 = 1)
      dnOfirst := decide (buf.length = 1) }

/-- Derived from R102: `floor(L/4)` bytes from a byte buffer of `L` bytes; byte `j` encodes the sample in input bytes
`4j` (low) and `4j+1` (high). Little-endian is the spec's decision D4 (log entry 2). -/
def Obligations.OutboundByteBuffer : Prop :=
  ∀ buf : List (BitVec 8),
    (outboundBytes .hw buf).length = buf.length / 4 ∧
    ∀ (j : Nat) (lo hi : BitVec 8), j < buf.length / 4 → buf[4 * j]? = some lo → buf[4 * j + 1]? = some hi →
      (outboundBytes .hw buf)[j]? = some (encodeSample .hw (hi ++ lo))

/-! ### DECUP -/

/-- R113: `up.accept` completes in every state with `up_pending = 0`, which is when the unit is ready; the first copy is
emitted with the item's marker and the second is owed. -/
def Obligations.DecupAcceptStep : Prop :=
  ∀ (first : Bool) (b : CompandedByte) (s : State),
    s.upInReady = !s.upPending ∧
    (s.upPending = false →
      exec (.decup first b) s = .next { s with
        upOut := s.upOut ++ [⟨first, decodeSample .hw b⟩]
        upHold := decodeSample .hw b
        upPending := true })

/-- Derived from R114: where the host presents nothing, an owed second copy is emitted with `first = 0` and nothing is
owed after; with nothing owed, nothing happens. In every state exactly one of accepting and repeating is enabled.
That DECUP's turn comes when the host presents nothing is the model's choice (log entry 5). -/
def Obligations.DecupRepeatStep : Prop :=
  (∀ s : State, s.upPending = true → s.host = [] →
    step s = .next { s with upOut := s.upOut ++ [⟨false, s.upHold⟩], upPending := false }) ∧
  (∀ (s : State) (rest : List HostEvent), s.upPending = true → s.host = .gap :: rest →
    step s = .next { s with
      upOut := s.upOut ++ [⟨false, s.upHold⟩]
      upPending := false
      host := rest }) ∧
  (∀ (s : State) (rest : List HostEvent), s.upPending = false → s.host = .gap :: rest →
    step s = .next { s with host := rest }) ∧
  (∀ s : State, s.upPending = false → s.host = [] → step s = .next s) ∧
  (∀ s : State, (s.upInReady = true ∧ s.owedCopy = none) ∨ (s.upInReady = false ∧ s.owedCopy ≠ none))

/-- Derived from R115 and log entry 4: an item presented while `up_pending = 1` is not accepted; the event is DECUP's own
repeat, the item waits, and at the next event it is accepted with its value and marker unchanged. -/
def Obligations.DecupHoldLosesNothing : Prop :=
  ∀ (first : Bool) (b : CompandedByte) (s : State), s.upPending = true →
    exec (.decup first b) s = .next { s with
      upOut := s.upOut ++ [⟨false, s.upHold⟩]
      upPending := false
      host := .item (encode (.decup first b)) :: s.host } ∧
    run 2 { s with host := .item (encode (.decup first b)) :: s.host } = .next { s with
      upOut := s.upOut ++ [⟨false, s.upHold⟩, ⟨first, decodeSample .hw b⟩]
      upHold := decodeSample .hw b }

/-- Derived from R40 and R113: the frame of DECUP. Nothing of DNENC or of the codec's ports changes, and the host's script
only where the item waits (the model's choice, log entry 4). -/
def Obligations.DecupLeavesTheRestAlone : Prop :=
  ∀ (first : Bool) (b : CompandedByte) (s t : State), exec (.decup first b) s = .next t →
    t.dnPhase = s.dnPhase ∧ t.dnHold = s.dnHold ∧ t.dnOfirst = s.dnOfirst ∧ t.dnOut = s.dnOut ∧
    t.encIn = s.encIn ∧ t.decIn = s.decIn ∧ t.freeIdx = s.freeIdx ∧
    (s.upPending = false → t.host = s.host)

/-- R111: the buffer-level meaning: `2N` samples, those at `2k` and `2k+1` the decoding of byte `k`. -/
def Obligations.UpsampleRepeatsEachSample : Prop :=
  ∀ (c : Config) (buf : List CompandedByte),
    (decodeAndUpsample c buf).length = 2 * buf.length ∧
    ∀ k, k < buf.length →
      (decodeAndUpsample c buf)[2 * k]? = (buf[k]?).map (decodeSample c) ∧
      (decodeAndUpsample c buf)[2 * k + 1]? = (buf[k]?).map (decodeSample c)

/-- Derived from R116 (the spec's own induction from R111, R113, R114): from any state with `up_pending = 0`, the `N`
items of one buffer take `2N` steps, emit exactly the samples of the buffer-level function, the first of them marked,
and leave `up_pending = 0`; everything else but `up_hold` is unchanged. That the steps alternate so, the repeat being the
event where the next item waits or the script is empty, is the model's choice (log entries 3, 4, 5 and 15). -/
def Obligations.DecupBufferRunRefinesR111 : Prop :=
  ∀ (s : State) (buf : List CompandedByte), s.upPending = false → s.host = upBufferEvents buf →
    ∃ hold, run (2 * buf.length) s = .next { s with
      host := []
      upOut := s.upOut ++ markBuffer (decodeAndUpsample .hw buf)
      upHold := hold }

/-- Derived from R117: an input of `N` bytes gives `4N` bytes; for the byte at index `k`, output bytes `4k` and `4k+2` are
bits 7:0 of its sample and `4k+1` and `4k+3` are bits 15:8. Little-endian is the spec's decision D4 (log entry 2). -/
def Obligations.InboundByteBuffer : Prop :=
  ∀ buf : List CompandedByte,
    (inboundBytes .hw buf).length = 4 * buf.length ∧
    ∀ (k : Nat) (b : CompandedByte), buf[k]? = some b →
      let p := (decodeSample .hw b).toNat
      (inboundBytes .hw buf)[4 * k]? = some (BitVec.ofNat 8 (p % 256)) ∧
      (inboundBytes .hw buf)[4 * k + 1]? = some (BitVec.ofNat 8 (p / 256)) ∧
      (inboundBytes .hw buf)[4 * k + 2]? = some (BitVec.ofNat 8 (p % 256)) ∧
      (inboundBytes .hw buf)[4 * k + 3]? = some (BitVec.ofNat 8 (p / 256))

/-! ### Buffers -/

/-- Derived from R34 (its little-endian reading is the spec's own, log entry 2): a written sample is read back, every
other sample and every other byte stays, byte `2k` holds bits 7:0 and byte `2k+1` bits 15:8. -/
def Obligations.ByteBufferReadAfterWrite : Prop :=
  (∀ (c : Config) (buf : List (BitVec 8)) (k : Nat) (p : LinearSample), 2 * k + 1 < buf.length →
    memRead c (memWrite c buf k p) k = some p ∧
    (∀ j, j ≠ k → memRead c (memWrite c buf k p) j = memRead c buf j) ∧
    (∀ a, a ≠ 2 * k → a ≠ 2 * k + 1 → (memWrite c buf k p)[a]? = buf[a]?)) ∧
  (∀ (buf : List (BitVec 8)) (k : Nat) (p : LinearSample), 2 * k + 1 < buf.length →
    (memWrite .hw buf k p)[2 * k]? = some (BitVec.ofNat 8 (p.toNat % 256)) ∧
    (memWrite .hw buf k p)[2 * k + 1]? = some (BitVec.ofNat 8 (p.toNat / 256)))

/-- Derived from R34, R36(a) and, in part, the model's choice: a byte buffer of `L` bytes holds `floor(L/2)` samples
(R36(a)), sample `k` as `MemRead` gives it for `k < floor(L/2)` (R34), and writing samples as bytes and reading them gives
them back. That for every other `k` `MemRead` gives none, as the list of samples does, is the model's choice (DESIGN
CHOICE, log entry 16): the spec speaks of no `MemRead` outside a whole unit. -/
def Obligations.SamplesOfAByteBuffer : Prop :=
  (∀ (c : Config) (buf : List (BitVec 8)),
    (samplesOfBytes c buf).length = buf.length / 2 ∧
    ∀ k, (samplesOfBytes c buf)[k]? = memRead c buf k) ∧
  (∀ (c : Config) (ps : List LinearSample), samplesOfBytes c (bytesOfSamples c ps) = ps)

/-- Derived from R41: nothing is carried from one buffer to the next on either stream unit: whatever the state, the outputs for a
sequence of buffers are the outputs of each buffer alone, one after the other. The number of steps of the DECUP run
rests on the model's choice of whose turn it is (log entries 4 and 5). -/
def Obligations.NothingCarriedBetweenBuffers : Prop :=
  (∀ (s : State) (bufs : List (List LinearSample)), s.host = bufs.flatMap dnBufferEvents →
    ∃ t, run (bufs.map List.length).sum s = .next t ∧ t.host = [] ∧
      t.dnOut = s.dnOut ++ bufs.flatMap fun buf => markBuffer (downsampleAndEncode .hw buf)) ∧
  (∀ (s : State) (bufs : List (List CompandedByte)), s.upPending = false → s.host = bufs.flatMap upBufferEvents →
    ∃ t, run (2 * (bufs.map List.length).sum) s = .next t ∧ t.host = [] ∧
      t.upPending = false ∧
      t.upOut = s.upOut ++ bufs.flatMap fun buf => markBuffer (decodeAndUpsample .hw buf))

/-- Derived from R135(a) and R136: the items of a sent buffer are marked as the host's duty asks, and cutting an output stream at its markers gives the output buffers, one for each input buffer that
has an output at all. (That items before the first marker belong to no buffer is DEDUCED, log entry 17; these streams
have none.) -/
def Obligations.MarkersSeparateOutputBuffers : Prop :=
  (∀ buf : List LinearSample, markersWf (markBuffer buf) = true) ∧
  (∀ buf : List CompandedByte, markersWf (markBuffer buf) = true) ∧
  (∀ bufs : List (List LinearSample), (∀ b ∈ bufs, 2 ≤ b.length) →
    buffersOf (bufs.flatMap fun b => markBuffer (downsampleAndEncode .hw b)) = bufs.map (downsampleAndEncode .hw)) ∧
  (∀ bufs : List (List CompandedByte), (∀ b ∈ bufs, b ≠ []) →
    buffersOf (bufs.flatMap fun b => markBuffer (decodeAndUpsample .hw b)) = bufs.map (decodeAndUpsample .hw))

/-- Derived from R60, R78(e), R96, R111 (program P3 of 95_test_vectors.md): the inbound path followed by the outbound
path gives every byte back, but for 0x7F, which comes back as 0xFF. -/
def Obligations.InboundThenOutboundIsIdentity : Prop :=
  ∀ bytes : List CompandedByte,
    downsampleAndEncode .hw (decodeAndUpsample .hw bytes) = bytes.map (fun b => if b = 0x7F then 0xFF else b) ∧
    outboundBytes .hw (inboundBytes .hw bytes) = bytes.map (fun b => if b = 0x7F then 0xFF else b)

/-! ### Reset -/

/-- Derived from R140: the reset event, for every value that the hold registers become: the phase, the marker and the pending bit are
cleared, nothing is emitted, and a stream item presented at the same event is not accepted. A value that the host drives
on `enc_in` or `dec_in` at the same event is driven all the same, so that `enc_out` and `dec_out` follow it (derived from
R127, R133(c) and R147; DEDUCED, log entry 20). That a stream item is not kept for a later event is the model's choice
(DESIGN CHOICE, log entry 10). -/
def Obligations.ResetEventStep : Prop :=
  ∀ (s : State) (coinciding : Option PortItem) (rest : List HostEvent), s.host = .rst coinciding :: rest →
    ∃ (dnHold : CompandedByte) (upHold : LinearSample) (freeIdx : Nat),
      step s = .next { s with
        host := rest
        dnPhase := false
        dnOfirst := false
        upPending := false
        dnHold := dnHold
        upHold := upHold
        freeIdx := freeIdx
        encIn := match coinciding with
          | some (.encIn w) => w
          | some (.decIn _) | some (.dnIn _) | some (.upIn _) | none => s.encIn
        decIn := match coinciding with
          | some (.decIn w) => w
          | some (.encIn _) | some (.dnIn _) | some (.upIn _) | none => s.decIn }

/-- Derived from R25 and R141: the state after reset, at the values the spec gives (the two hold registers and the input
ports have none and are not spoken of), with both stream units ready, and the constants. -/
def Obligations.StateAfterReset : Prop :=
  State.reset.dnPhase = false ∧ State.reset.dnOfirst = false ∧ State.reset.upPending = false ∧
  State.reset.dnOut = [] ∧ State.reset.upOut = [] ∧
  State.reset.dnInReady = true ∧ State.reset.upInReady = true ∧
  Config.hw.clip = 32635 ∧ Config.hw.encBias = 132 ∧ Config.hw.byteOrder = .little ∧ Config.hw.wf = true

/-- Derived from R142: a reset in mid-buffer loses the byte that waits in DNENC, and the next sample is taken as
even-indexed, whatever its marker; a reset between the two copies of a sample leaves one copy only. That the last step
of the second run, with an empty script, changes nothing is the model's choice (log entry 5). -/
def Obligations.ResetInMidBuffer : Prop :=
  (∀ (s : State) (first : Bool) (x y : LinearSample),
    s.host = [.rst none, .item (encode (.dnenc first x)), .item (encode (.dnenc false y))] →
    ∃ t, run 3 s = .next t ∧ t.dnOut = s.dnOut ++ [⟨first, encodeSample .hw x⟩] ∧
      t.dnPhase = false) ∧
  (∀ (s : State) (first : Bool) (b : CompandedByte), s.upPending = false →
    s.host = [.item (encode (.decup first b)), .rst none] →
    ∃ t, run 3 s = .next t ∧ t.upOut = s.upOut ++ [⟨first, decodeSample .hw b⟩] ∧
      t.finished = true)

/-! ### The machine -/

/-- R125: no fault exists, and no instruction and no step, in any state, ends in a fault or a refusal. -/
def Obligations.NothingFaultsOrRefuses : Prop :=
  (∀ _ : Fault, False) ∧
  (∀ (i : Instr) (s : State), ∃ t, exec i s = .next t) ∧
  (∀ s : State, ∃ t, step s = .next t)

/-- Derived from R11 and R53: when an item is at the head of the host's script, the step takes it from the script and is
exec of the instruction that the item decodes to. The script is the model's choice (log entry 3). -/
def Obligations.StepRunsTheDecodedItem : Prop :=
  ∀ (s : State) (p : PortItem) (rest : List HostEvent), s.host = .item p :: rest →
    step s = exec (decode p) { s with host := rest }

/-- Derived from R56 and log entries 11 and 12: presenting the item of a table word makes the very next step run the
instruction that the word decodes to. -/
def Obligations.FetchWordRunsNext : Prop :=
  ∀ (s : State) (nbits w : Nat) (i : Instr), decodeTableWord nbits w = some i →
    step (s.withFetchWord nbits w) = exec i s

/-- Derived from R19 to R22 and R88(c), and the model's reading of them (UnitInv): the state after reset meets the invariant. -/
def Obligations.ResetMeetsTheInvariant : Prop := UnitInv State.reset

/-- Derived from R19 to R22 and R88(c): from every state that meets the invariant, every step leads to one that does: a
waiting marker belongs to a waiting byte, an owed copy is the sample emitted last, and no sample outside -32124 to
32124 is ever emitted. -/
def Obligations.StepKeepsTheInvariant : Prop :=
  ∀ s t : State, UnitInv s → step s = .next t → UnitInv t

/-- Derived from R23, R99, R113, R114: a step appends to each output stream exactly what the output port carries at that
event, so at most one item on each. When the owed second copy is carried is the model's choice (log entries 4
and 5). -/
def Obligations.StreamsRecordThePorts : Prop :=
  ∀ s t : State, step s = .next t →
    t.dnOut = s.dnOut ++ s.dnOutPort.toList ∧ t.upOut = s.upOut ++ s.upOutPort.toList

/-- Derived from R40: steps of DNENC and DECUP commute, in every state: an item for each, or DECUP's own step.
Where the DECUP item must wait, its event is the repeat (the model's choice, log entry 4). -/
def Obligations.StreamUnitsCommute : Prop :=
  (∀ (f g : Bool) (x : LinearSample) (b : CompandedByte) (s : State),
    ∃ a a' t, exec (.dnenc f x) s = .next a ∧ exec (.decup g b) a = .next t ∧
      exec (.decup g b) s = .next a' ∧ exec (.dnenc f x) a' = .next t) ∧
  (∀ (f : Bool) (x : LinearSample) (s : State), upOwnStep (dnAccept f x s) = dnAccept f x (upOwnStep s))

/-- Derived from R40 and R133: over a whole script of any events, DNENC's state and output are what its own items and the
resets alone make of them, however the events of the other units stand between. The script is the model's choice (log
entry 3), and what a reset leaves in `dn_hold` is a free value (log entry 9). -/
def Obligations.DnencSeesOnlyItsOwnEvents : Prop :=
  ∀ (k : Nat) (s t : State), run k s = .next t → t.host = [] →
    let u := s.host.foldl dnEvent s
    t.dnOut = u.dnOut ∧ t.dnPhase = u.dnPhase ∧ t.dnHold = u.dnHold ∧ t.dnOfirst = u.dnOfirst

/-- Derived from R40 and R115: over a whole script without resets, a finished run has emitted on `up_out` both copies of
each byte presented to DECUP, in order, however the events of the other units and the gaps stand between. The script
and whose turn it is are the model's choice (log entries 3, 4 and 5). -/
def Obligations.DecupSeesOnlyItsOwnEvents : Prop :=
  ∀ (k : Nat) (s t : State), s.upPending = false → (∀ e ∈ s.host, e.isRst = false) →
    run k s = .next t → t.finished = true →
    t.upOut = s.upOut ++ s.host.flatMap upAnswers

/-- Derived from R150 and R136: every run ends: from any state, within two steps for each event of the script and one
more, the host has presented everything and no copy is owed. R150 asks for weak fairness of `up.repeat`; here the
model's choice of whose turn it is supplies it (DESIGN CHOICE, log entries 4 and 5: the event is the repeat where a
DECUP item waits and where the host presents nothing), over the finite script of log entry 3. -/
def Obligations.EveryRunFinishes : Prop :=
  ∀ s : State, ∃ k t, k ≤ 2 * s.host.length + 1 ∧ run k s = .next t ∧ t.finished = true

/-- Derived from R20, R22 and 93_implementation_defined.md U11: what a hold register holds while it is meaningless never
matters: states that no port can tell apart show the same on every output port and stay so under every step. -/
def Obligations.MeaninglessHoldsNeverMatter : Prop :=
  ∀ s s' t : State, Indistinguishable s s' → step s = .next t →
    (∃ t', step s' = .next t' ∧ Indistinguishable t t') ∧
    s'.dnOutPort = s.dnOutPort ∧ s'.upOutPort = s.upOutPort ∧ s'.encOut = s.encOut ∧ s'.decOut = s.decOut

/-! ### Encodings -/

/-- Derived from R53 and R57: an item on a port splits into an instruction and back, with every operand at every value and every
pattern of the wires; the marker of a stream item is the bit above its data. -/
def Obligations.PortItemsDecodeAndEncode : Prop :=
  (∀ i : Instr, i.wf = true → decode (encode i) = i) ∧
  (∀ p : PortItem, encode (decode p) = p ∧ (decode p).wf = true) ∧
  (∀ (f : Bool) (x : LinearSample), (encode (.dnenc f x)).wires = (if f then 65536 else 0) + x.toNat) ∧
  (∀ (f : Bool) (b : CompandedByte), (encode (.decup f b)).wires = (if f then 256 else 0) + b.toNat)

/-- Derived from R56 and log entry 11: decoding the table word of a well-formed instruction gives it back, as a number and
as bytes, with every operand at every value. -/
def Obligations.TableWordRoundTrip : Prop :=
  ∀ i : Instr, i.wf = true →
    decodeTableWord 24 (encode i).tableWord = some i ∧
    ∀ rest : List (BitVec 8), decodeBytes (encodeBytes i ++ rest) = .ok (i, rest)

/-- Derived from R56, R58 and log entry 11: a number that decodes is the table word of the instruction it decodes to, so
no bit is dropped and no two numbers stand for one instruction; and a number with a bit above its port's wires is
refused. -/
def Obligations.TableWordsAreUnique : Prop :=
  (∀ (nbits w : Nat) (i : Instr), decodeTableWord nbits w = some i → w % 2 ^ nbits = (encode i).tableWord) ∧
  (∀ w : Nat, (∀ p : PortItem, p.tableWord ≠ w) ↔ readTableWord w = .error .noSuchWire)

/-- Derived from R53, R56 and programs P2, P3, P5, P7 of 95_test_vectors.md: item words of the spec decode to the
instructions they stand for (FC18 and 4E of P7, 17FFF and 0FF84 of P2, 190 of P5, 04E of P3). The last four clauses speak
of the model's table words (DESIGN CHOICE, log entry 11): the spec gives the unit identifiers, and says that the uid is
no field of any word (R56). -/
def Obligations.ItemWordsOfTheSpec : Prop :=
  decode (.encIn 0xFC18) = .enc (-1000) ∧
  decode (.decIn 0x4E) = .dec 0x4E ∧
  decode (.dnIn 0x17FFF) = .dnenc true 32767 ∧
  decode (.dnIn 0x0FF84) = .dnenc false (-124) ∧
  decode (.upIn 0x190) = .decup true 0x90 ∧
  decode (.upIn 0x04E) = .decup false 0x4E ∧
  decodeTableWord 8 0 = some (.enc 0) ∧ decodeTableWord 8 1 = some (.dec 0) ∧
  decodeTableWord 8 2 = some (.dnenc false 0) ∧ decodeTableWord 8 3 = some (.decup false 0)
end

