-- ==== Sys2Proof/Laws/Codec.lean ====
section
/-! SUPPORT. The operand slices of the codec as quotients and remainders, and the facts about the two tables that a
proof over all samples needs (spec/40_mulaw_encode.md R72 to R76). -/

namespace Sys2Proof.Machine

theorem magnitude_le (x : LinearSample) : magnitude x ≤ 32768 := by
  have h := BitVec.le_toInt x
  have h' := BitVec.toInt_lt (x := x)
  simp only [magnitude]
  omega

theorem clampMagnitude_hw_le (m : Nat) : clampMagnitude .hw m ≤ 32635 := Nat.min_le_right _ _

/-- A mask of eight ones is a remainder. -/
theorem tableIndex_eq (g : Nat) : tableIndex g = g / 128 % 256 := by
  simp only [tableIndex, Nat.shiftRight_eq_div_pow]
  exact Nat.and_two_pow_sub_one_eq_mod _ 8

/-- A mask of four ones is a remainder. -/
theorem mantissa_eq (e g : Nat) : mantissa e g = g / 2 ^ (e + 3) % 16 := by
  simp only [mantissa, Nat.shiftRight_eq_div_pow]
  exact Nat.and_two_pow_sub_one_eq_mod _ 4

theorem mantissa_lt (e g : Nat) : mantissa e g < 16 := by
  rw [mantissa_eq]
  exact Nat.mod_lt _ (by decide)

theorem segmentExponent_lt (c : Config) (g : Nat) : segmentExponent c g < 8 := (encodeEntry c (tableIndex g)).isLt

theorem signField_cases (x : LinearSample) : signField x = 0x80 ∨ signField x = 0 := by
  unfold signField
  split <;> simp

/-- "The fields do not overlap, so `|` is also `+`" (R76). -/
theorem assemble_eq_add {s e m : Nat} (hs : s = 0x80 ∨ s = 0) (he : e < 8) (hm : m < 16) :
    assemble s e m = s + 16 * e + m := by
  have hall : ∀ e < 8, ∀ m < 16, assemble 0x80 e m = 0x80 + 16 * e + m ∧ assemble 0 e m = 0 + 16 * e + m := by decide
  rcases hs with rfl | rfl
  · exact (hall e he m hm).1
  · exact (hall e he m hm).2

/-- The complement of a byte is its distance from 255 (00_scope.md R6). -/
theorem encodeSample_toNat (c : Config) (x : LinearSample) :
    (encodeSample c x).toNat =
      255 - (signField x + 16 * segmentExponent c (biasedMagnitude c x) +
        mantissa (segmentExponent c (biasedMagnitude c x)) (biasedMagnitude c x)) := by
  have hs := signField_cases x
  have he := segmentExponent_lt c (biasedMagnitude c x)
  have hm := mantissa_lt (segmentExponent c (biasedMagnitude c x)) (biasedMagnitude c x)
  have hp := assemble_eq_add hs he hm
  simp only [encodeSample, BitVec.toNat_not, BitVec.toNat_ofNat, hp]
  rcases hs with h | h <;> rw [h] <;> omega

theorem encodeTable_length : Config.hw.encodeTable.length = 256 := by decide +kernel

theorem decodeTable_length : Config.hw.decodeTable.length = 256 := by decide +kernel

end Sys2Proof.Machine
end

