-- ==== Sys2Proof/Laws/State.lean ====
section
/-! SUPPORT. Each field of State after each update, so that no proof unfolds a record update. -/

namespace Sys2Proof.Machine

/-! ### emitDn -/

@[simp] theorem emitDn_dnPhase (m : Marked CompandedByte) (s : State) : (emitDn m s).dnPhase = s.dnPhase := rfl
@[simp] theorem emitDn_dnHold (m : Marked CompandedByte) (s : State) : (emitDn m s).dnHold = s.dnHold := rfl
@[simp] theorem emitDn_dnOfirst (m : Marked CompandedByte) (s : State) : (emitDn m s).dnOfirst = s.dnOfirst := rfl
@[simp] theorem emitDn_upPending (m : Marked CompandedByte) (s : State) : (emitDn m s).upPending = s.upPending := rfl
@[simp] theorem emitDn_upHold (m : Marked CompandedByte) (s : State) : (emitDn m s).upHold = s.upHold := rfl
@[simp] theorem emitDn_encIn (m : Marked CompandedByte) (s : State) : (emitDn m s).encIn = s.encIn := rfl
@[simp] theorem emitDn_decIn (m : Marked CompandedByte) (s : State) : (emitDn m s).decIn = s.decIn := rfl
@[simp] theorem emitDn_dnOut (m : Marked CompandedByte) (s : State) : (emitDn m s).dnOut = s.dnOut ++ [m] := rfl
@[simp] theorem emitDn_upOut (m : Marked CompandedByte) (s : State) : (emitDn m s).upOut = s.upOut := rfl
@[simp] theorem emitDn_host (m : Marked CompandedByte) (s : State) : (emitDn m s).host = s.host := rfl
@[simp] theorem emitDn_freeIdx (m : Marked CompandedByte) (s : State) : (emitDn m s).freeIdx = s.freeIdx := rfl

/-! ### emitUp -/

@[simp] theorem emitUp_dnPhase (m : Marked LinearSample) (s : State) : (emitUp m s).dnPhase = s.dnPhase := rfl
@[simp] theorem emitUp_dnHold (m : Marked LinearSample) (s : State) : (emitUp m s).dnHold = s.dnHold := rfl
@[simp] theorem emitUp_dnOfirst (m : Marked LinearSample) (s : State) : (emitUp m s).dnOfirst = s.dnOfirst := rfl
@[simp] theorem emitUp_upPending (m : Marked LinearSample) (s : State) : (emitUp m s).upPending = s.upPending := rfl
@[simp] theorem emitUp_upHold (m : Marked LinearSample) (s : State) : (emitUp m s).upHold = s.upHold := rfl
@[simp] theorem emitUp_encIn (m : Marked LinearSample) (s : State) : (emitUp m s).encIn = s.encIn := rfl
@[simp] theorem emitUp_decIn (m : Marked LinearSample) (s : State) : (emitUp m s).decIn = s.decIn := rfl
@[simp] theorem emitUp_dnOut (m : Marked LinearSample) (s : State) : (emitUp m s).dnOut = s.dnOut := rfl
@[simp] theorem emitUp_upOut (m : Marked LinearSample) (s : State) : (emitUp m s).upOut = s.upOut ++ [m] := rfl
@[simp] theorem emitUp_host (m : Marked LinearSample) (s : State) : (emitUp m s).host = s.host := rfl
@[simp] theorem emitUp_freeIdx (m : Marked LinearSample) (s : State) : (emitUp m s).freeIdx = s.freeIdx := rfl

/-! ### dnRetain -/

@[simp] theorem dnRetain_dnPhase (f : Bool) (x : LinearSample) (s : State) : (dnRetain f x s).dnPhase = true := rfl
@[simp] theorem dnRetain_dnHold (f : Bool) (x : LinearSample) (s : State) : (dnRetain f x s).dnHold = encodeSample .hw x := rfl
@[simp] theorem dnRetain_dnOfirst (f : Bool) (x : LinearSample) (s : State) : (dnRetain f x s).dnOfirst = (f || s.dnOfirst) := rfl
@[simp] theorem dnRetain_upPending (f : Bool) (x : LinearSample) (s : State) : (dnRetain f x s).upPending = s.upPending := rfl
@[simp] theorem dnRetain_upHold (f : Bool) (x : LinearSample) (s : State) : (dnRetain f x s).upHold = s.upHold := rfl
@[simp] theorem dnRetain_encIn (f : Bool) (x : LinearSample) (s : State) : (dnRetain f x s).encIn = s.encIn := rfl
@[simp] theorem dnRetain_decIn (f : Bool) (x : LinearSample) (s : State) : (dnRetain f x s).decIn = s.decIn := rfl
@[simp] theorem dnRetain_dnOut (f : Bool) (x : LinearSample) (s : State) : (dnRetain f x s).dnOut = s.dnOut := rfl
@[simp] theorem dnRetain_upOut (f : Bool) (x : LinearSample) (s : State) : (dnRetain f x s).upOut = s.upOut := rfl
@[simp] theorem dnRetain_host (f : Bool) (x : LinearSample) (s : State) : (dnRetain f x s).host = s.host := rfl
@[simp] theorem dnRetain_freeIdx (f : Bool) (x : LinearSample) (s : State) : (dnRetain f x s).freeIdx = s.freeIdx := rfl

/-! ### dnComplete -/

@[simp] theorem dnComplete_dnPhase (s : State) : (dnComplete s).dnPhase = false := rfl
@[simp] theorem dnComplete_dnHold (s : State) : (dnComplete s).dnHold = s.dnHold := rfl
@[simp] theorem dnComplete_dnOfirst (s : State) : (dnComplete s).dnOfirst = false := rfl
@[simp] theorem dnComplete_upPending (s : State) : (dnComplete s).upPending = s.upPending := rfl
@[simp] theorem dnComplete_upHold (s : State) : (dnComplete s).upHold = s.upHold := rfl
@[simp] theorem dnComplete_encIn (s : State) : (dnComplete s).encIn = s.encIn := rfl
@[simp] theorem dnComplete_decIn (s : State) : (dnComplete s).decIn = s.decIn := rfl
@[simp] theorem dnComplete_dnOut (s : State) : (dnComplete s).dnOut = s.dnOut ++ [⟨s.dnOfirst, s.dnHold⟩] := rfl
@[simp] theorem dnComplete_upOut (s : State) : (dnComplete s).upOut = s.upOut := rfl
@[simp] theorem dnComplete_host (s : State) : (dnComplete s).host = s.host := rfl
@[simp] theorem dnComplete_freeIdx (s : State) : (dnComplete s).freeIdx = s.freeIdx := rfl

/-! ### upAccept -/

@[simp] theorem upAccept_dnPhase (f : Bool) (b : CompandedByte) (s : State) : (upAccept f b s).dnPhase = s.dnPhase := rfl
@[simp] theorem upAccept_dnHold (f : Bool) (b : CompandedByte) (s : State) : (upAccept f b s).dnHold = s.dnHold := rfl
@[simp] theorem upAccept_dnOfirst (f : Bool) (b : CompandedByte) (s : State) : (upAccept f b s).dnOfirst = s.dnOfirst := rfl
@[simp] theorem upAccept_upPending (f : Bool) (b : CompandedByte) (s : State) : (upAccept f b s).upPending = true := rfl
@[simp] theorem upAccept_upHold (f : Bool) (b : CompandedByte) (s : State) : (upAccept f b s).upHold = decodeSample .hw b := rfl
@[simp] theorem upAccept_encIn (f : Bool) (b : CompandedByte) (s : State) : (upAccept f b s).encIn = s.encIn := rfl
@[simp] theorem upAccept_decIn (f : Bool) (b : CompandedByte) (s : State) : (upAccept f b s).decIn = s.decIn := rfl
@[simp] theorem upAccept_dnOut (f : Bool) (b : CompandedByte) (s : State) : (upAccept f b s).dnOut = s.dnOut := rfl
@[simp] theorem upAccept_upOut (f : Bool) (b : CompandedByte) (s : State) : (upAccept f b s).upOut = s.upOut ++ [⟨f, decodeSample .hw b⟩] := rfl
@[simp] theorem upAccept_host (f : Bool) (b : CompandedByte) (s : State) : (upAccept f b s).host = s.host := rfl
@[simp] theorem upAccept_freeIdx (f : Bool) (b : CompandedByte) (s : State) : (upAccept f b s).freeIdx = s.freeIdx := rfl

/-! ### upRepeat -/

@[simp] theorem upRepeat_dnPhase (s : State) : (upRepeat s).dnPhase = s.dnPhase := rfl
@[simp] theorem upRepeat_dnHold (s : State) : (upRepeat s).dnHold = s.dnHold := rfl
@[simp] theorem upRepeat_dnOfirst (s : State) : (upRepeat s).dnOfirst = s.dnOfirst := rfl
@[simp] theorem upRepeat_upPending (s : State) : (upRepeat s).upPending = false := rfl
@[simp] theorem upRepeat_upHold (s : State) : (upRepeat s).upHold = s.upHold := rfl
@[simp] theorem upRepeat_encIn (s : State) : (upRepeat s).encIn = s.encIn := rfl
@[simp] theorem upRepeat_decIn (s : State) : (upRepeat s).decIn = s.decIn := rfl
@[simp] theorem upRepeat_dnOut (s : State) : (upRepeat s).dnOut = s.dnOut := rfl
@[simp] theorem upRepeat_upOut (s : State) : (upRepeat s).upOut = s.upOut ++ [⟨false, s.upHold⟩] := rfl
@[simp] theorem upRepeat_host (s : State) : (upRepeat s).host = s.host := rfl
@[simp] theorem upRepeat_freeIdx (s : State) : (upRepeat s).freeIdx = s.freeIdx := rfl

/-! ### driveEncIn -/

@[simp] theorem driveEncIn_dnPhase (x : LinearSample) (s : State) : (driveEncIn x s).dnPhase = s.dnPhase := rfl
@[simp] theorem driveEncIn_dnHold (x : LinearSample) (s : State) : (driveEncIn x s).dnHold = s.dnHold := rfl
@[simp] theorem driveEncIn_dnOfirst (x : LinearSample) (s : State) : (driveEncIn x s).dnOfirst = s.dnOfirst := rfl
@[simp] theorem driveEncIn_upPending (x : LinearSample) (s : State) : (driveEncIn x s).upPending = s.upPending := rfl
@[simp] theorem driveEncIn_upHold (x : LinearSample) (s : State) : (driveEncIn x s).upHold = s.upHold := rfl
@[simp] theorem driveEncIn_encIn (x : LinearSample) (s : State) : (driveEncIn x s).encIn = x := rfl
@[simp] theorem driveEncIn_decIn (x : LinearSample) (s : State) : (driveEncIn x s).decIn = s.decIn := rfl
@[simp] theorem driveEncIn_dnOut (x : LinearSample) (s : State) : (driveEncIn x s).dnOut = s.dnOut := rfl
@[simp] theorem driveEncIn_upOut (x : LinearSample) (s : State) : (driveEncIn x s).upOut = s.upOut := rfl
@[simp] theorem driveEncIn_host (x : LinearSample) (s : State) : (driveEncIn x s).host = s.host := rfl
@[simp] theorem driveEncIn_freeIdx (x : LinearSample) (s : State) : (driveEncIn x s).freeIdx = s.freeIdx := rfl

/-! ### driveDecIn -/

@[simp] theorem driveDecIn_dnPhase (b : CompandedByte) (s : State) : (driveDecIn b s).dnPhase = s.dnPhase := rfl
@[simp] theorem driveDecIn_dnHold (b : CompandedByte) (s : State) : (driveDecIn b s).dnHold = s.dnHold := rfl
@[simp] theorem driveDecIn_dnOfirst (b : CompandedByte) (s : State) : (driveDecIn b s).dnOfirst = s.dnOfirst := rfl
@[simp] theorem driveDecIn_upPending (b : CompandedByte) (s : State) : (driveDecIn b s).upPending = s.upPending := rfl
@[simp] theorem driveDecIn_upHold (b : CompandedByte) (s : State) : (driveDecIn b s).upHold = s.upHold := rfl
@[simp] theorem driveDecIn_encIn (b : CompandedByte) (s : State) : (driveDecIn b s).encIn = s.encIn := rfl
@[simp] theorem driveDecIn_decIn (b : CompandedByte) (s : State) : (driveDecIn b s).decIn = b := rfl
@[simp] theorem driveDecIn_dnOut (b : CompandedByte) (s : State) : (driveDecIn b s).dnOut = s.dnOut := rfl
@[simp] theorem driveDecIn_upOut (b : CompandedByte) (s : State) : (driveDecIn b s).upOut = s.upOut := rfl
@[simp] theorem driveDecIn_host (b : CompandedByte) (s : State) : (driveDecIn b s).host = s.host := rfl
@[simp] theorem driveDecIn_freeIdx (b : CompandedByte) (s : State) : (driveDecIn b s).freeIdx = s.freeIdx := rfl

/-! ### present -/

@[simp] theorem present_dnPhase (p : PortItem) (s : State) : (present p s).dnPhase = s.dnPhase := rfl
@[simp] theorem present_dnHold (p : PortItem) (s : State) : (present p s).dnHold = s.dnHold := rfl
@[simp] theorem present_dnOfirst (p : PortItem) (s : State) : (present p s).dnOfirst = s.dnOfirst := rfl
@[simp] theorem present_upPending (p : PortItem) (s : State) : (present p s).upPending = s.upPending := rfl
@[simp] theorem present_upHold (p : PortItem) (s : State) : (present p s).upHold = s.upHold := rfl
@[simp] theorem present_encIn (p : PortItem) (s : State) : (present p s).encIn = s.encIn := rfl
@[simp] theorem present_decIn (p : PortItem) (s : State) : (present p s).decIn = s.decIn := rfl
@[simp] theorem present_dnOut (p : PortItem) (s : State) : (present p s).dnOut = s.dnOut := rfl
@[simp] theorem present_upOut (p : PortItem) (s : State) : (present p s).upOut = s.upOut := rfl
@[simp] theorem present_host (p : PortItem) (s : State) : (present p s).host = .item p :: s.host := rfl
@[simp] theorem present_freeIdx (p : PortItem) (s : State) : (present p s).freeIdx = s.freeIdx := rfl

/-! ### rstEvent -/

@[simp] theorem rstEvent_dnPhase (s : State) : (rstEvent s).dnPhase = false := rfl
@[simp] theorem rstEvent_dnHold (s : State) : (rstEvent s).dnHold = Config.freeDnHold s.freeIdx := rfl
@[simp] theorem rstEvent_dnOfirst (s : State) : (rstEvent s).dnOfirst = false := rfl
@[simp] theorem rstEvent_upPending (s : State) : (rstEvent s).upPending = false := rfl
@[simp] theorem rstEvent_upHold (s : State) : (rstEvent s).upHold = Config.freeUpHold s.freeIdx := rfl
@[simp] theorem rstEvent_encIn (s : State) : (rstEvent s).encIn = s.encIn := rfl
@[simp] theorem rstEvent_decIn (s : State) : (rstEvent s).decIn = s.decIn := rfl
@[simp] theorem rstEvent_dnOut (s : State) : (rstEvent s).dnOut = s.dnOut := rfl
@[simp] theorem rstEvent_upOut (s : State) : (rstEvent s).upOut = s.upOut := rfl
@[simp] theorem rstEvent_host (s : State) : (rstEvent s).host = s.host := rfl
@[simp] theorem rstEvent_freeIdx (s : State) : (rstEvent s).freeIdx = s.freeIdx + 1 := rfl

/-! ### dnAccept, upOwnStep and driveThroughRst, the fields they never write -/

@[simp] theorem dnAccept_upPending (f : Bool) (x : LinearSample) (s : State) : (dnAccept f x s).upPending = s.upPending := by
  unfold dnAccept; split <;> rfl
@[simp] theorem dnAccept_upHold (f : Bool) (x : LinearSample) (s : State) : (dnAccept f x s).upHold = s.upHold := by
  unfold dnAccept; split <;> rfl
@[simp] theorem dnAccept_encIn (f : Bool) (x : LinearSample) (s : State) : (dnAccept f x s).encIn = s.encIn := by
  unfold dnAccept; split <;> rfl
@[simp] theorem dnAccept_decIn (f : Bool) (x : LinearSample) (s : State) : (dnAccept f x s).decIn = s.decIn := by
  unfold dnAccept; split <;> rfl
@[simp] theorem dnAccept_upOut (f : Bool) (x : LinearSample) (s : State) : (dnAccept f x s).upOut = s.upOut := by
  unfold dnAccept; split <;> rfl
@[simp] theorem dnAccept_host (f : Bool) (x : LinearSample) (s : State) : (dnAccept f x s).host = s.host := by
  unfold dnAccept; split <;> rfl
@[simp] theorem dnAccept_freeIdx (f : Bool) (x : LinearSample) (s : State) : (dnAccept f x s).freeIdx = s.freeIdx := by
  unfold dnAccept; split <;> rfl
@[simp] theorem upOwnStep_dnPhase (s : State) : (upOwnStep s).dnPhase = s.dnPhase := by
  unfold upOwnStep; split <;> rfl
@[simp] theorem upOwnStep_dnHold (s : State) : (upOwnStep s).dnHold = s.dnHold := by
  unfold upOwnStep; split <;> rfl
@[simp] theorem upOwnStep_dnOfirst (s : State) : (upOwnStep s).dnOfirst = s.dnOfirst := by
  unfold upOwnStep; split <;> rfl
@[simp] theorem upOwnStep_upHold (s : State) : (upOwnStep s).upHold = s.upHold := by
  unfold upOwnStep; split <;> rfl
@[simp] theorem upOwnStep_encIn (s : State) : (upOwnStep s).encIn = s.encIn := by
  unfold upOwnStep; split <;> rfl
@[simp] theorem upOwnStep_decIn (s : State) : (upOwnStep s).decIn = s.decIn := by
  unfold upOwnStep; split <;> rfl
@[simp] theorem upOwnStep_dnOut (s : State) : (upOwnStep s).dnOut = s.dnOut := by
  unfold upOwnStep; split <;> rfl
@[simp] theorem upOwnStep_host (s : State) : (upOwnStep s).host = s.host := by
  unfold upOwnStep; split <;> rfl
@[simp] theorem upOwnStep_freeIdx (s : State) : (upOwnStep s).freeIdx = s.freeIdx := by
  unfold upOwnStep; split <;> rfl
@[simp] theorem upOwnStep_upPending (s : State) : (upOwnStep s).upPending = false := by
  unfold upOwnStep; split <;> simp_all
@[simp] theorem driveThroughRst_dnPhase (c : Option PortItem) (s : State) : (driveThroughRst c s).dnPhase = s.dnPhase := by
  unfold driveThroughRst; split <;> [rfl; (split <;> rfl)]
@[simp] theorem driveThroughRst_dnHold (c : Option PortItem) (s : State) : (driveThroughRst c s).dnHold = s.dnHold := by
  unfold driveThroughRst; split <;> [rfl; (split <;> rfl)]
@[simp] theorem driveThroughRst_dnOfirst (c : Option PortItem) (s : State) : (driveThroughRst c s).dnOfirst = s.dnOfirst := by
  unfold driveThroughRst; split <;> [rfl; (split <;> rfl)]
@[simp] theorem driveThroughRst_upPending (c : Option PortItem) (s : State) : (driveThroughRst c s).upPending = s.upPending := by
  unfold driveThroughRst; split <;> [rfl; (split <;> rfl)]
@[simp] theorem driveThroughRst_upHold (c : Option PortItem) (s : State) : (driveThroughRst c s).upHold = s.upHold := by
  unfold driveThroughRst; split <;> [rfl; (split <;> rfl)]
@[simp] theorem driveThroughRst_dnOut (c : Option PortItem) (s : State) : (driveThroughRst c s).dnOut = s.dnOut := by
  unfold driveThroughRst; split <;> [rfl; (split <;> rfl)]
@[simp] theorem driveThroughRst_upOut (c : Option PortItem) (s : State) : (driveThroughRst c s).upOut = s.upOut := by
  unfold driveThroughRst; split <;> [rfl; (split <;> rfl)]
@[simp] theorem driveThroughRst_host (c : Option PortItem) (s : State) : (driveThroughRst c s).host = s.host := by
  unfold driveThroughRst; split <;> [rfl; (split <;> rfl)]
@[simp] theorem driveThroughRst_freeIdx (c : Option PortItem) (s : State) : (driveThroughRst c s).freeIdx = s.freeIdx := by
  unfold driveThroughRst; split <;> [rfl; (split <;> rfl)]

end Sys2Proof.Machine
end

