-- ==== Sys2Proof/Laws/Ops.lean ====
section
/-! SUPPORT. What each shared operation can do, said once: the cases of `dn.accept`, of DECUP's own step, of exec and
of step. Later proofs cite these and unfold none of them. -/

namespace Sys2Proof.Machine

theorem dnAccept_cases (f : Bool) (x : LinearSample) (s : State) :
    (evenIndexed f s = true ∧ dnAccept f x s = dnRetain f x s) ∨
    (evenIndexed f s = false ∧ f = false ∧ s.dnPhase = true ∧ dnAccept f x s = dnComplete s) := by
  cases h : evenIndexed f s
  · refine .inr ⟨rfl, ?_, ?_, by simp [dnAccept, h]⟩ <;> simp_all [evenIndexed]
  · exact .inl ⟨rfl, by simp [dnAccept, h]⟩

/-- What an item that coincides with `rst` can do. -/
theorem driveThroughRst_cases (c : Option PortItem) (s : State) :
    driveThroughRst c s = s ∨ (∃ x, driveThroughRst c s = driveEncIn x s) ∨
      ∃ b, driveThroughRst c s = driveDecIn b s := by
  cases c with
  | none => exact .inl rfl
  | some p =>
    cases p with
    | encIn w => exact .inr (.inl ⟨w, rfl⟩)
    | decIn w => exact .inr (.inr ⟨w, rfl⟩)
    | dnIn _ => exact .inl rfl
    | upIn _ => exact .inl rfl

theorem upOwnStep_cases (s : State) :
    (s.upPending = true ∧ upOwnStep s = upRepeat s) ∨ (s.upPending = false ∧ upOwnStep s = s) := by
  cases h : s.upPending <;> simp [upOwnStep, h]

/-- Everything an instruction can do. -/
theorem exec_cases {i : Instr} {s t : State} (h : exec i s = .next t) :
    (∃ x, i = .enc x ∧ t = driveEncIn x s) ∨
    (∃ b, i = .dec b ∧ t = driveDecIn b s) ∨
    (∃ f x, i = .dnenc f x ∧ t = dnAccept f x s) ∨
    (∃ f b, i = .decup f b ∧ s.upPending = false ∧ t = upAccept f b s) ∨
    (∃ f b, i = .decup f b ∧ s.upPending = true ∧ t = present (encode (.decup f b)) (upRepeat s)) := by
  cases i with
  | enc x => cases h; exact .inl ⟨x, rfl, rfl⟩
  | dec b => cases h; exact .inr (.inl ⟨b, rfl, rfl⟩)
  | dnenc f x => cases h; exact .inr (.inr (.inl ⟨f, x, rfl, rfl⟩))
  | decup f b =>
    simp only [exec, execDecup] at h
    cases hp : s.upPending <;> rw [hp] at h <;> cases h
    · exact .inr (.inr (.inr (.inl ⟨f, b, rfl, rfl, rfl⟩)))
    · exact .inr (.inr (.inr (.inr ⟨f, b, rfl, rfl, rfl⟩)))

/-- Everything a step can do, by the head of the host's script. -/
theorem step_cases {s t : State} (h : step s = .next t) :
    (s.host = [] ∧ t = upOwnStep s) ∨
    (∃ rest, s.host = .gap :: rest ∧ t = upOwnStep { s with host := rest }) ∨
    (∃ c rest, s.host = .rst c :: rest ∧ t = rstEvent (driveThroughRst c { s with host := rest })) ∨
    (∃ p rest, s.host = .item p :: rest ∧ exec (decode p) { s with host := rest } = .next t) := by
  unfold step takeTurn at h
  match hh : s.host with
  | [] => rw [hh] at h; cases h; exact .inl ⟨rfl, rfl⟩
  | .gap :: rest => rw [hh] at h; cases h; exact .inr (.inl ⟨rest, rfl, rfl⟩)
  | .rst c :: rest => rw [hh] at h; cases h; exact .inr (.inr (.inl ⟨c, rest, rfl, rfl⟩))
  | .item p :: rest => rw [hh] at h; exact .inr (.inr (.inr ⟨p, rest, rfl, h⟩))

/-- The host interface's run, one event at a time. -/
theorem coreRun_next (M : Host.Core) {k : Nat} {s t : M.State} (h : M.step s = .next t) :
    M.run (k + 1) s = M.run k t := by
  rw [Host.Core.run, h]

theorem coreRun_refused (M : Host.Core) {k : Nat} {s : M.State} {r : M.Refusal} (h : M.step s = .refused r) :
    M.run (k + 1) s = .refused r := by
  rw [Host.Core.run, h]

/-- `run` is the host interface's run. -/
theorem run_eq_coreRun (k : Nat) (s : State) : run k s = Host.Core.run Sys2Proof.core k s := by
  induction k generalizing s with
  | zero => rfl
  | succ k ih =>
    unfold run
    cases h : step s with
    | next t => exact (ih t).trans (coreRun_next Sys2Proof.core h).symm
    | fault r => exact nomatch r
    | refused r => exact (coreRun_refused Sys2Proof.core h).symm

/-- Peeling one event off a run. -/
theorem run_succ_of_step {k : Nat} {s t : State} (h : step s = .next t) : run (k + 1) s = run k t := by
  simp only [run, h]

theorem run_add {j k : Nat} {s t : State} (h : run j s = .next t) : run (j + k) s = run k t := by
  induction j generalizing s with
  | zero => cases h; rw [Nat.zero_add]
  | succ j ih =>
    rw [Nat.add_right_comm]
    simp only [run] at h ⊢
    split at h
    · exact ih h
    · cases h
    · cases h

end Sys2Proof.Machine
end

