-- ==== Sys2Proof/Laws/PerInstr.lean ====
section
/-! SUPPORT. Facts about every instruction as syntax, one lemma per constructor. -/

namespace Sys2Proof.Laws.TableWord

/-- The unit identifier that the operation table gives an instruction (spec/30_encoding.md R56). -/
def uidOf : Instr → Nat
  | .enc _ => 0
  | .dec _ => 1
  | .dnenc _ _ => 2
  | .decup _ _ => 3

/-- An instruction is well-formed, its table word has its row's unit identifier in bits 1:0, and the word is no longer
than the 2 bits of the identifier and the 17 wires of the widest port. -/
def Statement (i : Instr) : Prop :=
  i.wf = true ∧ (encode i).tableWord % 4 = uidOf i ∧ (encode i).tableWord < 2 ^ 19

theorem enc (x : LinearSample) : Statement (.enc x) := by
  have h := x.isLt
  refine ⟨rfl, ?_, ?_⟩ <;> simp only [encode, PortItem.tableWord, PortItem.wires, PortItem.uid, uidOf] <;> omega

theorem dec (b : CompandedByte) : Statement (.dec b) := by
  have h := b.isLt
  refine ⟨rfl, ?_, ?_⟩ <;> simp only [encode, PortItem.tableWord, PortItem.wires, PortItem.uid, uidOf] <;> omega

theorem dnenc (first : Bool) (x : LinearSample) : Statement (.dnenc first x) := by
  have h := (BitVec.ofBool first ++ x).isLt
  refine ⟨rfl, ?_, ?_⟩ <;> simp only [encode, PortItem.tableWord, PortItem.wires, PortItem.uid, uidOf] <;> omega

theorem decup (first : Bool) (b : CompandedByte) : Statement (.decup first b) := by
  have h := (BitVec.ofBool first ++ b).isLt
  refine ⟨rfl, ?_, ?_⟩ <;> simp only [encode, PortItem.tableWord, PortItem.wires, PortItem.uid, uidOf] <;> omega

end Sys2Proof.Laws.TableWord
end

