-- ==== Sys2Proof/Tests/Slice0.lean ====
section
/-! SUPPORT. Own tests. Expected values are those of spec/95_test_vectors.md and the rules named; then, for every
statement with hypotheses, a witness that meets all of them together. -/

namespace Sys2Proof.Tests

open Sys2Proof.Machine

/-- The state after reset with a host's script. -/
def scripted (events : List HostEvent) : State := { State.reset with host := events }

/-- DNENC with a byte waiting (95_test_vectors.md T3, step 1). -/
def waiting : State := { State.reset with dnPhase := true, dnHold := 0x9F, dnOfirst := true }

/-- DECUP owing the second copy of 988 (T2, step 1). -/
def owing : State := { State.reset with upPending := true, upHold := 988, upOut := [⟨true, 988⟩] }

/-- What a test asks of the next state; false where there is none. -/
def after (o : Host.Outcome State Fault Refusal) (p : State → Bool) : Bool :=
  match o with
  | .next s => p s
  | .fault _ => false
  | .refused _ => false

/-! ### Well-formedness: one ill-formed term for each check -/

theorem test_wf_hw : Config.hw.wf = true := by decide +kernel
theorem test_wf_encodeTable_short : (Config.wf { Config.hw with encodeTable := List.replicate 255 0 }) = false := by decide +kernel
theorem test_wf_encodeTable_decreasing :
    (Config.wf { Config.hw with encodeTable := List.replicate 255 1 ++ [0] }) = false := by decide +kernel
theorem test_wf_decodeTable_long : (Config.wf { Config.hw with decodeTable := List.replicate 257 0 }) = false := by decide +kernel
theorem test_wf_clip_too_large : (Config.wf { Config.hw with clip := 32636 }) = false := by decide +kernel
theorem test_wf_markers : markersWf (markBuffer [1#8, 2, 3]) = true := by decide
theorem test_wf_first_marker_missing : markersWf [⟨false, 1#8⟩, ⟨false, 2⟩] = false := by decide
theorem test_wf_marker_in_the_middle : markersWf [⟨true, 1#8⟩, ⟨true, 2⟩] = false := by decide
theorem test_reject_wire_absent : readTableWord (256 * 4 + 1) = .error .noSuchWire := by decide
theorem test_reject_too_short : decodeBytes [0x02, 0x00] = .error .tooShort := by decide

/-! ### Decoding: item words of spec/95_test_vectors.md section 3, bit by bit in the formats of R53 -/

/-- P7: ENC operand word FC18 is -1000. -/
theorem test_decode_enc : decode (.encIn 0b1111110000011000) = .enc (-1000) := by decide
/-- P7: DEC operand word 4E. -/
theorem test_decode_dec : decode (.decIn 0b01001110) = .dec 0x4E := by decide
/-- P2: DNENC item words 17FFF and 0FF84 are `{1, 32767}` and `{0, -124}`. -/
theorem test_decode_dnenc : decode (.dnIn 0b10111111111111111) = .dnenc true 32767 ∧
    decode (.dnIn 0b01111111110000100) = .dnenc false (-124) := by decide
/-- P5, P3: DECUP item words 190 and 04E are `{1, 0x90}` and `{0, 0x4E}`. -/
theorem test_decode_decup : decode (.upIn 0b110010000) = .decup true 0x90 ∧
    decode (.upIn 0b001001110) = .decup false 0x4E := by decide
/-- The uid column of R56, in bits 1:0 of a table word. -/
theorem test_table_word_uid : decodeTableWord 8 0b00 = some (.enc 0) ∧ decodeTableWord 8 0b01 = some (.dec 0) ∧
    decodeTableWord 8 0b10 = some (.dnenc false 0) ∧ decodeTableWord 8 0b11 = some (.decup false 0) := by decide
theorem test_bytes_round_trip : decodeBytes (encodeBytes (.dnenc true (-1000)) ++ [0xAA]) = .ok (.dnenc true (-1000), [0xAA]) := by decide

/-! ### One step of each operation (sections 2.1, 2.2, 2.7) -/

/-- Section 2.1: -32768, whose magnitude does not fit a LinearSample, gives 0x00. -/
theorem test_enc_most_negative : after (exec (.enc 0x8000) State.reset) (fun s => s.encOut == 0x00) = true := by decide +kernel
/-- Section 2.1: 123 and 124 lie on the two sides of a segment boundary. -/
theorem test_enc_segment_boundary : (after (exec (.enc 123) State.reset) (fun s => s.encOut == 0xF0) &&
    after (exec (.enc 124) State.reset) (fun s => s.encOut == 0xEF)) = true := by decide +kernel
/-- Section 2.2: 0x4E gives -988. -/
theorem test_dec_negative : after (exec (.dec 0x4E) State.reset) (fun s => s.decOut.toInt == -988) = true := by decide +kernel
/-- R89: the "negative zero" code gives plain 0. -/
theorem test_dec_negative_zero : after (exec (.dec 0x7F) State.reset) (fun s => s.decOut == 0) = true := by decide +kernel
/-- T1, step 2: the odd-indexed sample emits the waiting byte with its marker, whatever its own value. -/
theorem test_dnenc_pair_completes : after (exec (.dnenc false 6) waiting)
    (fun s => s.dnOut == [⟨true, 0x9F⟩] && !s.dnPhase && !s.dnOfirst) = true := by decide +kernel
/-- P4, step 4: `first = 1` overwrites a byte that waits, unseen. -/
theorem test_dnenc_first_restarts : after (exec (.dnenc true (-4)) waiting)
    (fun s => s.dnHold == 0x7E && s.dnPhase && s.dnOfirst && s.dnOut == []) = true := by decide +kernel
/-- T2, step 1. -/
theorem test_decup_first_copy : after (exec (.decup true 0xCE) State.reset)
    (fun s => s.upOut == [⟨true, 988⟩] && s.upPending && s.upHold == 988) = true := by decide +kernel
/-- R115: presented while a copy is owed, the byte waits and the copy is emitted. -/
theorem test_decup_waits : after (exec (.decup false 0x4E) owing)
    (fun s => s.upOut == [⟨true, 988⟩, ⟨false, 988⟩] && !s.upPending && s.host == [.item (.upIn 0x04E)]) = true := by decide +kernel
/-- P5, step 2: `rst` drops the owed copy. -/
theorem test_rst_drops_the_copy : after (step { owing with host := [.rst none] })
    (fun s => s.upOut == [⟨true, 988⟩] && !s.upPending && s.host == []) = true := by decide +kernel
/-- U14: `rst` wins over a coinciding item. -/
theorem test_rst_wins : after (step { waiting with host := [.rst (some (.dnIn 6))] })
    (fun s => s.dnOut == [] && !s.dnPhase) = true := by decide +kernel
/-- R147, R127: a value driven on `enc_in` at the event of `rst` shows on `enc_out` (`ENC 1000 -> 0xCE`). -/
theorem test_rst_leaves_enc_in_driven : after (step { waiting with host := [.rst (some (.encIn 1000))] })
    (fun s => s.encOut == 0xCE && !s.dnPhase && s.dnOut == []) = true := by decide +kernel
/-- The same for `dec_in` and `dec_out` (`DEC 0xCE -> 988`). -/
theorem test_rst_leaves_dec_in_driven : after (step { owing with host := [.rst (some (.decIn 0xCE))] })
    (fun s => s.decOut == 988 && !s.upPending && s.upOut == [⟨true, 988⟩]) = true := by decide +kernel
/-- A table word runs as the first instruction after reset (ENC of pattern 1, `{item 1, uid 00}`). -/
theorem test_fetch_word : after (step (State.reset.withFetchWord 24 0b100)) (fun s => s.encIn == 1) = true := by decide

/-! ### Buffers (sections 2.4 to 2.6) -/

theorem test_downsample_odd_count : downsampleAndEncode .hw [5, 6, 7] = [0xFE] := by decide +kernel
theorem test_upsample : decodeAndUpsample .hw [0x80, 0x00] = [32124, 32124, -32124, -32124] := by decide +kernel
theorem test_outbound_bytes : outboundBytes .hw [0xE8, 0x03, 0x07, 0x00, 0x18] = [0xCE] := by decide +kernel
theorem test_inbound_bytes : inboundBytes .hw [0xCE, 0x4E] = [0xDC, 0x03, 0xDC, 0x03, 0x24, 0xFC, 0x24, 0xFC] := by decide +kernel
/-- The last column of section 2.1 (`B lit`): the literal reading, `ENC_BIAS = 0`, sends 128 to 0xFF. -/
theorem test_literal_reading : encodeSample { Config.hw with encBias := 0 } 128 = 0xFF := by decide +kernel

/-! ### Witnesses: for each statement with hypotheses, operands and a state that meet them all -/

theorem witness_EncodeTableIsFloorLog2 : (1 ≤ 1 ∧ 1 ≤ 255 ∧ (encodeEntry .hw 1).toNat = 0) ∧
    (1 ≤ 255 ∧ 255 ≤ 255 ∧ (encodeEntry .hw 255).toNat = 7) ∧ (254 < 255 ∧ (encodeEntry .hw 254).toNat = 7) := by decide +kernel
theorem witness_NoTableIndexOutOfRange : 255 ≤ 255 ∧ 255 < Config.hw.encodeTable.length := by decide +kernel
theorem witness_DecodeTableSymmetryRangeOrder :
    (0xFF ≠ 0x7F#8 ∧ 0x00 ≠ 0x7F#8 ∧ decodeSample .hw 0xFF ≠ decodeSample .hw 0x00) ∧
    ((0x80#8).toNat ≥ 0x80 ∧ (0x80#8).toNat < (0xFF#8).toNat) ∧
    ((0x7F#8).toNat ≤ 0x7F ∧ (0x00#8).toNat < (0x7F#8).toNat) := by decide +kernel
/-- Two different samples may share a byte, two different bytes other than 0x7F share no sample: equal operands meet it. -/
theorem witness_DecodeTable_injective : 0xFF ≠ 0x7F#8 ∧ decodeSample .hw 0xFF = decodeSample .hw 0xFF := by decide +kernel
theorem witness_LargeMagnitudesAreClamped : 32635 ≤ (32635 : LinearSample).toInt.natAbs ∧
    32635 ≤ (0x8000 : LinearSample).toInt.natAbs ∧ encodeSample .hw 0x8000 = 0x00 ∧ encodeSample .hw 32635 = 0x80 := by decide +kernel
theorem witness_EncodeIsMagnitudeMonotonic :
    (((127 : LinearSample).toInt < 0 ↔ (128 : LinearSample).toInt < 0) ∧ (127 : LinearSample).toInt.natAbs < (128 : LinearSample).toInt.natAbs) ∧
    (((0x8001 : LinearSample).toInt < 0 ↔ (0x8000 : LinearSample).toInt < 0) ∧ (0x8001 : LinearSample).toInt.natAbs < (0x8000 : LinearSample).toInt.natAbs) := by decide
theorem witness_EncodeSignSymmetry : (1 : LinearSample) ≠ 0 ∧ (1 : LinearSample) ≠ 0x8000 ∧
    encodeSample .hw 1 = 0xFF ∧ encodeSample .hw (-1) = 0x7F := by decide +kernel
theorem witness_CodecUnitsHoldNoState : owing.encIn = waiting.encIn ∧ owing.decIn = waiting.decIn ∧ owing ≠ waiting ∧
    (∃ t, exec (.enc 5) owing = .next t) ∧ ∃ t, exec (.dec 5) owing = .next t :=
  ⟨rfl, rfl, by decide, ⟨_, rfl⟩, ⟨_, rfl⟩⟩
/-- Its three cases: `first = 1`; `first = 0` in phase 0; `first = 0` in phase 1. -/
theorem witness_DnencAcceptStep : State.reset.dnPhase = false ∧ waiting.dnPhase = true := by decide
theorem witness_DnencLeavesTheRestAlone : ∃ t, exec (.dnenc false 6) waiting = .next t := ⟨_, rfl⟩
theorem witness_DownsampleEncodesEvenSamples : 0 < ([5, 6] : List LinearSample).length / 2 := by decide
theorem witness_OddCountDropsTheLastSample : ([] : List LinearSample).length % 2 = 0 ∧ ([5, 6] : List LinearSample).length % 2 = 0 := by decide
theorem witness_OddSamplesHaveNoInfluence : ∃ a b : List LinearSample, a ≠ b ∧ a.length = b.length ∧ ∀ k, a[2 * k]? = b[2 * k]? :=
  ⟨[5, 6], [5, 7], by decide, by decide, fun k => by cases k <;> simp [Nat.mul_succ]⟩
theorem witness_DnencBufferRunRefinesR96 : ([1000, 7, -1000] : List LinearSample) ≠ [] ∧
    (scripted (dnBufferEvents [1000, 7, -1000] ++ [.gap])).host = dnBufferEvents [1000, 7, -1000] ++ [.gap] := by decide
theorem witness_OutboundByteBuffer : ∃ (buf : List (BitVec 8)) (lo hi : BitVec 8),
    0 < buf.length / 4 ∧ buf[4 * 0]? = some lo ∧ buf[4 * 0 + 1]? = some hi :=
  ⟨[0xE8, 0x03, 0x07, 0x00], 0xE8, 0x03, by decide, by decide, by decide⟩
theorem witness_DecupAcceptStep : State.reset.upPending = false := rfl
/-- Its four cases: owed and empty script, owed and a gap, nothing owed and a gap, nothing owed and empty script. -/
theorem witness_DecupRepeatStep : (owing.upPending = true ∧ owing.host = []) ∧
    (({ owing with host := [.gap] } : State).upPending = true ∧ ({ owing with host := [.gap] } : State).host = .gap :: []) ∧
    ((scripted [.gap]).upPending = false ∧ (scripted [.gap]).host = .gap :: []) ∧
    ((scripted []).upPending = false ∧ (scripted []).host = []) := by decide
theorem witness_DecupHoldLosesNothing : owing.upPending = true := rfl
theorem witness_DecupLeavesTheRestAlone : (∃ t, exec (.decup true 0xCE) State.reset = .next t) ∧
    (∃ t, exec (.decup false 0x4E) owing = .next t) ∧ State.reset.upPending = false := ⟨⟨_, rfl⟩, ⟨_, rfl⟩, rfl⟩
theorem witness_UpsampleRepeatsEachSample : 0 < ([0xCE] : List CompandedByte).length := by decide
theorem witness_DecupBufferRunRefinesR111 : (scripted (upBufferEvents [0xCE, 0x4E])).upPending = false ∧
    (scripted (upBufferEvents [0xCE, 0x4E])).host = upBufferEvents [0xCE, 0x4E] := by decide
theorem witness_InboundByteBuffer : ([0xCE] : List CompandedByte)[0]? = some 0xCE := by decide
/-- The last whole sample of a buffer with an odd last byte. -/
theorem witness_ByteBufferReadAfterWrite : 2 * 1 + 1 < ([0xE8, 0x03, 0x07, 0x00, 0x18] : List (BitVec 8)).length ∧ 0 ≠ 1 := by decide
theorem witness_NothingCarriedBetweenBuffers :
    (scripted ([[1000, 2000, 3000], [-4, -5]].flatMap dnBufferEvents)).host = [[1000, 2000, 3000], [-4, -5]].flatMap dnBufferEvents ∧
    (scripted ([[0xCE], [0x4E]].flatMap upBufferEvents)).upPending = false ∧
    (scripted ([[0xCE], [0x4E]].flatMap upBufferEvents)).host = [[0xCE], [0x4E]].flatMap upBufferEvents := by decide
theorem witness_MarkersSeparateOutputBuffers : (∀ b ∈ ([[5, 6], [5, 6, 7]] : List (List LinearSample)), 2 ≤ b.length) ∧
    ∀ b ∈ ([[0xCE], [0x4E]] : List (List CompandedByte)), b ≠ [] := by decide
/-- Its cases: a stream item, a value on `enc_in`, a value on `dec_in`, nothing. -/
theorem witness_ResetEventStep : ∀ c ∈ [some (.upIn 0x04E), some (.dnIn 6), some (.encIn 1000), some (.decIn 0xCE), none],
    ({ owing with host := [.rst c] } : State).host = .rst c :: [] := fun _ _ => rfl
theorem witness_ResetInMidBuffer :
    ({ waiting with host := [.rst none, .item (encode (.dnenc false 100)), .item (encode (.dnenc false 0))] } : State).host =
      [.rst none, .item (encode (.dnenc false 100)), .item (encode (.dnenc false 0))] ∧
    (scripted [.item (encode (.decup true 0x90)), .rst none]).upPending = false ∧
    (scripted [.item (encode (.decup true 0x90)), .rst none]).host = [.item (encode (.decup true 0x90)), .rst none] := by decide
theorem witness_StepRunsTheDecodedItem : (scripted [.item (.dnIn 0x103E8)]).host = .item (.dnIn 0x103E8) :: [] := rfl
theorem witness_FetchWordRunsNext : decodeTableWord 24 (0x103E8 * 4 + 2) = some (.dnenc true 1000) := by decide
/-- A state with an owed copy and a marker that waits meets the invariant, and a step from it answers a next state. -/
theorem witness_StepKeepsTheInvariant :
    UnitInv { owing with dnPhase := true, dnOfirst := true } ∧
    ∃ t, step { owing with dnPhase := true, dnOfirst := true } = .next t :=
  ⟨⟨fun _ => rfl, fun _ => ⟨⟨true, 988⟩, rfl, rfl⟩, by decide⟩, ⟨_, rfl⟩⟩
theorem witness_StreamsRecordThePorts : ∃ t, step (scripted [.item (.upIn 0x1CE)]) = .next t := ⟨_, rfl⟩
theorem witness_DnencSeesOnlyItsOwnEvents : after (run 2 (scripted [.item (.dnIn 0x10000), .item (.encIn 5)])) (fun t => t.host == []) = true := by decide
theorem witness_DecupSeesOnlyItsOwnEvents : (scripted [.item (.upIn 0x1CE), .item (.dnIn 0)]).upPending = false ∧
    (∀ e ∈ (scripted [.item (.upIn 0x1CE), .item (.dnIn 0)]).host, e.isRst = false) ∧
    after (run 3 (scripted [.item (.upIn 0x1CE), .item (.dnIn 0)])) (fun t => t.finished) = true := by decide +kernel
theorem witness_MeaninglessHoldsNeverMatter :
    Indistinguishable State.reset { State.reset with dnHold := 0xFF, upHold := 1, freeIdx := 9 } ∧
    State.reset ≠ { State.reset with dnHold := 0xFF, upHold := 1, freeIdx := 9 } ∧ ∃ t, step State.reset = .next t :=
  ⟨⟨rfl, (fun h => nomatch h), rfl, rfl, (fun h => nomatch h), rfl, rfl, rfl, rfl, rfl⟩, by decide, ⟨_, rfl⟩⟩
theorem witness_wf_every_constructor : (Instr.enc 0).wf = true ∧ (Instr.dec 0).wf = true ∧ (Instr.dnenc true 0).wf = true ∧
    (Instr.decup true 0).wf = true := by decide
/-- 5 is DEC with item 1; 1025 would be DEC with item 256, one bit more than `dec_in` has. -/
theorem witness_TableWordsAreUnique : decodeTableWord 8 5 = some (.dec 1) ∧ readTableWord 1025 = .error .noSuchWire := by decide

end Sys2Proof.Tests
end

section
/-! The indices of the two tables (spec/20_memory.md R31). -/

namespace Sys2Proof.Machine

/-- The mask alone gives the bound, whatever the biased magnitude is. -/
theorem tableIndex_le (g : Nat) : tableIndex g ≤ 255 := by
  rw [tableIndex_eq]
  exact Nat.le_of_lt_succ (Nat.mod_lt _ (by decide))

theorem lt_encodeTable_length {i : Nat} (hi : i ≤ 255) : i < Config.hw.encodeTable.length := by
  rw [encodeTable_length]
  exact Nat.lt_succ_of_le hi

theorem toNat_lt_decodeTable_length (b : CompandedByte) : b.toNat < Config.hw.decodeTable.length := by
  rw [decodeTable_length]
  exact b.isLt

/-- Settles O6: the mask bounds the computed index, the width of a byte the other one, and both tables have 256
entries. -/
theorem noTableIndexOutOfRange : Obligations.NoTableIndexOutOfRange :=
  ⟨fun _ => tableIndex_le _, fun _ => lt_encodeTable_length, toNat_lt_decodeTable_length⟩

end Sys2Proof.Machine
end

section
/-! The contents of `EncodeTable` (spec/40_mulaw_encode.md R73). -/

namespace Sys2Proof.Machine

/-- R73's formula for every index at once, entry 0 included: `Nat.log2 0` is 0. The table is data, so its 256 entries are
compared. -/
theorem encodeEntry_hw_toNat : ∀ i < 256, (encodeEntry .hw i).toNat = Nat.log2 i := by decide +kernel

/-- Neighbouring entries are in order because `log2` is monotone. -/
theorem encodeEntry_hw_le_succ {i : Nat} (hi : i < 255) :
    (encodeEntry .hw i).toNat ≤ (encodeEntry .hw (i + 1)).toNat := by
  rw [encodeEntry_hw_toNat i (by omega), encodeEntry_hw_toNat (i + 1) (by omega), Nat.log2_eq_log_two,
    Nat.log2_eq_log_two]
  exact Nat.log_mono_right (Nat.le_succ i)

/-- Settles O3: every entry is `log2` of its index, and `log2` gives the order. -/
theorem encodeTableIsFloorLog2 : Obligations.EncodeTableIsFloorLog2 :=
  ⟨encodeTable_length, encodeEntry_hw_toNat 0 (by decide), fun i _ hi => encodeEntry_hw_toNat i (by omega),
    fun _ => encodeEntry_hw_le_succ⟩

end Sys2Proof.Machine
end

section
/-! The contents of `DecodeTable` (spec/41_mulaw_decode.md R86). -/

namespace Sys2Proof.Machine

/-- `t` of R86: the midpoint of the cell of exponent `e` and mantissa `m`, the bias of 132 still in it. -/
def cellMidpoint (e m : Nat) : Int := (8 * m + 132) * 2 ^ e

/-- R86's second form of the midpoint. -/
theorem cellMidpoint_eq_mul_pow (e m : Nat) : cellMidpoint e m = (2 * m + 33) * 2 ^ (e + 2) := by
  unfold cellMidpoint
  ring

/-- No cell lies below the first one (`e = 0`, `m = 0`). -/
theorem le_cellMidpoint (e m : Nat) : 132 ≤ cellMidpoint e m := by
  have hm : (132 : Int) ≤ 8 * m + 132 := by omega
  have he : (1 : Int) ≤ 2 ^ e := one_le_pow₀ (by decide)
  exact mul_le_mul hm he (by decide) (by omega)

/-- The last cell (`e = 7`, `m = 15`) is the highest one. -/
theorem cellMidpoint_le {e m : Nat} (he : e < 8) (hm : m < 16) : cellMidpoint e m ≤ 32256 := by
  have hm' : (8 * m + 132 : Int) ≤ 252 := by omega
  have he' : (2 : Int) ^ e ≤ 2 ^ 7 := pow_le_pow_right₀ (by decide) (Nat.le_of_lt_succ he)
  exact mul_le_mul hm' he' (by positivity) (by decide)

/-- R86's formula for every byte. The table is data, so its 256 entries are compared. -/
theorem decodeSample_hw_toInt : ∀ b : CompandedByte, (decodeSample .hw b).toInt =
    if (255 - b.toNat) / 128 = 0 then cellMidpoint ((255 - b.toNat) / 16 % 8) ((255 - b.toNat) % 16) - 132
    else 132 - cellMidpoint ((255 - b.toNat) / 16 % 8) ((255 - b.toNat) % 16) := by
  decide +kernel

/-- The sign field only picks the sign: the magnitude is the midpoint less the bias. -/
theorem decodeSample_hw_natAbs (b : CompandedByte) : ((decodeSample .hw b).toInt.natAbs : Int) =
    cellMidpoint ((255 - b.toNat) / 16 % 8) ((255 - b.toNat) % 16) - 132 := by
  have ht := le_cellMidpoint ((255 - b.toNat) / 16 % 8) ((255 - b.toNat) % 16)
  rw [decodeSample_hw_toInt]
  split <;> omega

/-- Settles O4: the entries are the signed midpoints, and a byte's fields bound the midpoint. -/
theorem decodeTableIsTheFormula : Obligations.DecodeTableIsTheFormula := by
  refine ⟨decodeTable_length, fun b => ⟨decodeSample_hw_toInt b, le_cellMidpoint _ _, ?upper, ?magnitude⟩⟩
  case upper => exact cellMidpoint_le (Nat.mod_lt _ (by decide)) (Nat.mod_lt _ (by decide))
  case magnitude => rw [decodeSample_hw_natAbs, cellMidpoint_eq_mul_pow]

end Sys2Proof.Machine
end

section
/-! The buffer-level function of DNENC (spec/42_downsample_encode.md R96, R97): its length, its bytes, and what it makes
of a buffer appended to whole pairs. -/

namespace Sys2Proof.Machine

@[simp] theorem downsampleAndEncode_nil (c : Config) : downsampleAndEncode c [] = [] := rfl

/-- An unpaired sample has no byte (R97). -/
@[simp] theorem downsampleAndEncode_singleton (c : Config) (x : LinearSample) : downsampleAndEncode c [x] = [] := rfl

@[simp] theorem downsampleAndEncode_cons_cons (c : Config) (x y : LinearSample) (rest : List LinearSample) :
    downsampleAndEncode c (x :: y :: rest) = encodeSample c x :: downsampleAndEncode c rest := rfl

@[simp] theorem length_downsampleAndEncode (c : Config) (buf : List LinearSample) :
    (downsampleAndEncode c buf).length = buf.length / 2 := by
  induction buf using List.twoStepInduction with
  | nil => rfl
  | singleton x => simp
  | cons_cons x y rest ih _ =>
    simp only [downsampleAndEncode_cons_cons, List.length_cons, ih]
    omega

/-- The bound on `j` matters: an unpaired last sample has an even index and no byte (R97). -/
theorem getElem?_downsampleAndEncode (c : Config) {buf : List LinearSample} {j : Nat} (hj : j < buf.length / 2) :
    (downsampleAndEncode c buf)[j]? = (buf[2 * j]?).map (encodeSample c) := by
  induction buf using List.twoStepInduction generalizing j with
  | nil => simp at hj
  | singleton x => simp at hj
  | cons_cons x y rest ih _ =>
    cases j with
    | zero => rfl
    | succ j =>
      have hj' : j < rest.length / 2 := by simp only [List.length_cons] at hj; omega
      simpa [Nat.mul_succ] using ih hj'

/-- Whole pairs are encoded on their own, whatever follows them (R98). -/
theorem downsampleAndEncode_append (c : Config) {a : List LinearSample} (ha : a.length % 2 = 0)
    (b : List LinearSample) :
    downsampleAndEncode c (a ++ b) = downsampleAndEncode c a ++ downsampleAndEncode c b := by
  induction a using List.twoStepInduction with
  | nil => rfl
  | singleton x => simp at ha
  | cons_cons x y rest ih _ =>
    have hrest : rest.length % 2 = 0 := by simp only [List.length_cons] at ha; omega
    simp [ih hrest]

/-- Settles O17: one byte for each pair, and byte `j` is that of the pair's even-indexed sample. -/
theorem downsampleEncodesEvenSamples : Obligations.DownsampleEncodesEvenSamples :=
  fun c buf => ⟨length_downsampleAndEncode c buf, fun _ => getElem?_downsampleAndEncode c⟩

/-- Settles O18: the last sample stands alone after whole pairs, and alone it has no byte. -/
theorem oddCountDropsTheLastSample : Obligations.OddCountDropsTheLastSample := by
  intro c buf x heven
  have hdrop : downsampleAndEncode c (buf ++ [x]) = downsampleAndEncode c buf := by
    rw [downsampleAndEncode_append c heven, downsampleAndEncode_singleton, List.append_nil]
  exact ⟨hdrop, by simp [hdrop]⟩

end Sys2Proof.Machine
end

section
/-! DNENC's accept step (spec/42_downsample_encode.md R99). -/

namespace Sys2Proof.Machine

theorem exec_dnenc (first : Bool) (x : LinearSample) (s : State) :
    exec (.dnenc first x) s = .next (dnAccept first x s) := rfl

/-- `first = 1` marks index 0, and in phase 0 the index is even too. -/
theorem dnAccept_eq_dnRetain {first : Bool} {s : State} (h : first = true ∨ s.dnPhase = false) (x : LinearSample) :
    dnAccept first x s = dnRetain first x s := by
  obtain ⟨-, hretain⟩ | ⟨-, hfirst, hphase, -⟩ := dnAccept_cases first x s
  · exact hretain
  · simp [hfirst, hphase] at h

theorem dnAccept_eq_dnComplete {first : Bool} {s : State} (hfirst : first = false) (hphase : s.dnPhase = true)
    (x : LinearSample) : dnAccept first x s = dnComplete s := by
  obtain ⟨heven, -⟩ | ⟨-, -, -, hcomplete⟩ := dnAccept_cases first x s
  · simp [evenIndexed, hfirst, hphase] at heven
  · exact hcomplete

/-- The retained byte's state as R99 writes it, the marker set by `first = 1` and else kept. -/
theorem dnRetain_eq (first : Bool) (x : LinearSample) (s : State) :
    dnRetain first x s = { s with
      dnHold := encodeSample .hw x
      dnPhase := true
      dnOfirst := if first then true else s.dnOfirst } := by
  cases first <;> rfl

/-- Settles O15: exec of DNENC is `dn.accept`, which retains an even-indexed sample and completes a pair on an odd-indexed
one. -/
theorem dnencAcceptStep : Obligations.DnencAcceptStep := by
  refine fun first x s => ⟨rfl, fun heven => ?retain, fun hfirst hphase => ?complete⟩
  case retain => rw [exec_dnenc, dnAccept_eq_dnRetain heven, dnRetain_eq]
  case complete => rw [exec_dnenc, dnAccept_eq_dnComplete hfirst hphase]; rfl

end Sys2Proof.Machine
end

section
/-! The buffer-level function of DECUP (spec/43_decode_upsample.md R111, R112): its length and its samples. -/

namespace Sys2Proof.Machine

@[simp] theorem decodeAndUpsample_nil (c : Config) : decodeAndUpsample c [] = [] := rfl

@[simp] theorem decodeAndUpsample_cons (c : Config) (b : CompandedByte) (rest : List CompandedByte) :
    decodeAndUpsample c (b :: rest) = decodeSample c b :: decodeSample c b :: decodeAndUpsample c rest := rfl

@[simp] theorem length_decodeAndUpsample (c : Config) (buf : List CompandedByte) :
    (decodeAndUpsample c buf).length = 2 * buf.length := by
  induction buf with
  | nil => rfl
  | cons b rest ih => simp only [decodeAndUpsample_cons, List.length_cons, ih, Nat.mul_succ]

/-- No bound on `k`: past the buffer's end both sides are none. -/
theorem getElem?_decodeAndUpsample_even (c : Config) (buf : List CompandedByte) (k : Nat) :
    (decodeAndUpsample c buf)[2 * k]? = (buf[k]?).map (decodeSample c) := by
  induction buf generalizing k with
  | nil => rfl
  | cons b rest ih =>
    cases k with
    | zero => rfl
    | succ k => simpa [Nat.mul_succ] using ih k

/-- The second copy is the first one again (R112: no interpolation). -/
theorem getElem?_decodeAndUpsample_odd (c : Config) (buf : List CompandedByte) (k : Nat) :
    (decodeAndUpsample c buf)[2 * k + 1]? = (decodeAndUpsample c buf)[2 * k]? := by
  induction buf generalizing k with
  | nil => rfl
  | cons b rest ih =>
    cases k with
    | zero => rfl
    | succ k => simpa [Nat.mul_succ] using ih k

/-- Settles O26: two samples for each byte, the one at `2k` decodes byte `k` and the one at `2k + 1` repeats it. -/
theorem upsampleRepeatsEachSample : Obligations.UpsampleRepeatsEachSample := by
  refine fun c buf => ⟨length_decodeAndUpsample c buf, fun k _ => ?_⟩
  have hfirst := getElem?_decodeAndUpsample_even c buf k
  exact ⟨hfirst, (getElem?_decodeAndUpsample_odd c buf k).trans hfirst⟩

end Sys2Proof.Machine
end

section
/-! DECUP's accept step (spec/43_decode_upsample.md R113). -/

namespace Sys2Proof.Machine

/-- With nothing owed, the item is accepted. -/
theorem exec_decup_of_not_upPending {s : State} (h : s.upPending = false) (first : Bool) (b : CompandedByte) :
    exec (.decup first b) s = .next (upAccept first b s) := by
  simp [exec, execDecup, h]

/-- The accepted item's state as R113 writes it. -/
theorem upAccept_eq (first : Bool) (b : CompandedByte) (s : State) :
    upAccept first b s = { s with
      upOut := s.upOut ++ [⟨first, decodeSample .hw b⟩]
      upHold := decodeSample .hw b
      upPending := true } := rfl

/-- Settles O22: DECUP is ready when nothing is owed, and then exec of its item is `up.accept`. -/
theorem decupAcceptStep : Obligations.DecupAcceptStep := by
  refine fun first b s => ⟨rfl, fun hready => ?accept⟩
  case accept => rw [exec_decup_of_not_upPending hready, upAccept_eq]

end Sys2Proof.Machine
end

section
/-! Every operation completes (spec/60_exceptions.md R125): exec of each instruction and each step is a next state. -/

namespace Sys2Proof.Machine

theorem exec_enc (x : LinearSample) (s : State) : exec (.enc x) s = .next (driveEncIn x s) := rfl

theorem exec_dec (b : CompandedByte) (s : State) : exec (.dec b) s = .next (driveDecIn b s) := rfl

/-- While a copy is owed, the event is the repeat, and the item is presented again (R115). -/
theorem exec_decup_of_upPending {s : State} (h : s.upPending = true) (first : Bool) (b : CompandedByte) :
    exec (.decup first b) s = .next (present (encode (.decup first b)) (upRepeat s)) := by
  simp [exec, execDecup, h]

/-- Only DECUP has two cases: an item that it cannot accept waits, and that is a next state too. -/
theorem exists_exec_eq_next (i : Instr) (s : State) : ∃ t, exec i s = .next t := by
  cases i with
  | enc x => exact ⟨_, exec_enc x s⟩
  | dec b => exact ⟨_, exec_dec b s⟩
  | dnenc first x => exact ⟨_, exec_dnenc first x s⟩
  | decup first b =>
    cases hpending : s.upPending with
    | false => exact ⟨_, exec_decup_of_not_upPending hpending first b⟩
    | true => exact ⟨_, exec_decup_of_upPending hpending first b⟩

theorem step_of_takeTurn_quiet {s t : State} (h : takeTurn s = .quiet t) : step s = .next t := by
  simp only [step, h]

theorem step_of_takeTurn_run {s t : State} {i : Instr} (h : takeTurn s = .run i t) : step s = exec i t := by
  simp only [step, h]

/-- A quiet event is itself the next state; any other one is exec of an instruction, which completes. -/
theorem exists_step_eq_next (s : State) : ∃ t, step s = .next t := by
  cases hturn : takeTurn s with
  | quiet t => exact ⟨t, step_of_takeTurn_quiet hturn⟩
  | run i u =>
    obtain ⟨t, hexec⟩ := exists_exec_eq_next i u
    exact ⟨t, (step_of_takeTurn_run hturn).trans hexec⟩

/-- Settles O37: the type of faults has no constructor, every instruction completes, and so does every step. -/
theorem nothingFaultsOrRefuses : Obligations.NothingFaultsOrRefuses :=
  ⟨nofun, exists_exec_eq_next, exists_step_eq_next⟩

end Sys2Proof.Machine
end

section
/-! Items, their wires and their table words (spec/30_encoding.md R53, R56, R57; log entry 11). -/

namespace Sys2Proof

/-- A marker above its data is the next power of two on the wires (R53). -/
theorem toNat_ofBool_append {n : Nat} (f : Bool) (x : BitVec n) :
    (BitVec.ofBool f ++ x).toNat = (if f then 2 ^ n else 0) + x.toNat := by
  rw [BitVec.toNat_append, ← Nat.shiftLeft_add_eq_or_of_lt x.isLt, Nat.shiftLeft_eq]
  cases f <;> simp

/-- A port's wires are the marker and the data, nothing between (R53). -/
theorem ofBool_append_extractLsb' {n : Nat} (w : BitVec (1 + n)) :
    BitVec.ofBool (w.getLsbD n) ++ w.extractLsb' 0 n = w := by
  ext i hi
  rw [BitVec.getElem_append]
  split
  case isTrue hdata => simp [← BitVec.getLsbD_eq_getElem, hdata]
  case isFalse hmarker =>
    obtain rfl : i = n := by omega
    simp [← BitVec.getLsbD_eq_getElem]

@[simp] theorem encode_decode (p : PortItem) : encode (decode p) = p := by
  cases p with
  | encIn w => rfl
  | decIn w => rfl
  | dnIn w => exact congrArg PortItem.dnIn (ofBool_append_extractLsb' (n := 16) w)
  | upIn w => exact congrArg PortItem.upIn (ofBool_append_extractLsb' (n := 8) w)

theorem getLsbD_ofBool_append {n : Nat} (f : Bool) (x : BitVec n) : (BitVec.ofBool f ++ x).getLsbD n = f := by
  rw [BitVec.getLsbD_append]
  simp

theorem extractLsb'_ofBool_append {n : Nat} (f : Bool) (x : BitVec n) : (BitVec.ofBool f ++ x).extractLsb' 0 n = x := by
  ext i hi
  simp [BitVec.getLsbD_append, hi]

@[simp] theorem decode_encode (i : Instr) : decode (encode i) = i := by
  cases i with
  | enc x => rfl
  | dec b => rfl
  | dnenc f x => exact congrArg₂ Instr.dnenc (getLsbD_ofBool_append f x) (extractLsb'_ofBool_append f x)
  | decup f b => exact congrArg₂ Instr.decup (getLsbD_ofBool_append f b) (extractLsb'_ofBool_append f b)

/-- There are no illegal encodings (R57). -/
theorem Instr.wf_eq_true (i : Instr) : i.wf = true := by cases i <;> rfl

/-- Settles O48: decode and encode take an item apart and put it together, and the marker is the wire above the data. -/
theorem portItemsDecodeAndEncode : Obligations.PortItemsDecodeAndEncode :=
  ⟨fun i _ => decode_encode i, fun p => ⟨encode_decode p, Instr.wf_eq_true _⟩,
    toNat_ofBool_append (n := 16), toNat_ofBool_append (n := 8)⟩

/-- An item's table word reads back as the item: the unit identifier and the wires are its remainder and its quotient. -/
theorem readTableWord_tableWord (p : PortItem) : readTableWord p.tableWord = .ok p := by
  have hquot : p.tableWord / 4 = p.wires := by cases p <;> simp only [PortItem.tableWord, PortItem.uid] <;> omega
  have hrem : p.tableWord % 4 = p.uid := by cases p <;> simp only [PortItem.tableWord, PortItem.uid] <;> omega
  unfold readTableWord
  rw [hquot, hrem]
  cases p with
  | encIn w | decIn w | dnIn w | upIn w => simp [PortItem.uid, PortItem.wires, w.isLt]

/-- A number either is the table word of the item read from it or is refused, by unit and by the width of its port. -/
theorem readTableWord_cases (w : Nat) :
    (∃ p, readTableWord w = .ok p ∧ p.tableWord = w) ∨ readTableWord w = .error .noSuchWire := by
  obtain hunit | hunit | hunit | hunit : w % 4 = 0 ∨ w % 4 = 1 ∨ w % 4 = 2 ∨ w % 4 = 3 := by omega
  all_goals
    simp only [readTableWord, hunit]
    split
    case isTrue hfits =>
      refine .inl ⟨_, rfl, ?_⟩
      simp only [PortItem.tableWord, PortItem.wires, PortItem.uid, BitVec.toNat_ofNat, Nat.mod_eq_of_lt hfits]
      omega
    case isFalse => exact .inr rfl

/-- No bit of a number that reads as an item is dropped. -/
theorem tableWord_of_readTableWord {w : Nat} {p : PortItem} (h : readTableWord w = .ok p) : p.tableWord = w := by
  obtain ⟨q, hq, hword⟩ | hrefused := readTableWord_cases w
  · cases hq.symm.trans h; exact hword
  · cases hrefused.symm.trans h

theorem decodeTableWord_of_readTableWord {nbits w : Nat} {p : PortItem} (h : readTableWord (w % 2 ^ nbits) = .ok p) :
    decodeTableWord nbits w = some (decode p) := by
  simp only [decodeTableWord, h]

/-- A number that decodes reads as the item of its instruction. -/
theorem readTableWord_of_decodeTableWord {nbits w : Nat} {i : Instr} (h : decodeTableWord nbits w = some i) :
    readTableWord (w % 2 ^ nbits) = .ok (encode i) := by
  unfold decodeTableWord at h
  split at h
  · rename_i p hp
    cases h
    rw [hp, encode_decode]
  · cases h

/-- Settles O50: an item read from a number has that number as its table word, so a number no item has cannot be read. -/
theorem tableWordsAreUnique : Obligations.TableWordsAreUnique := by
  refine ⟨fun nbits w i h => (tableWord_of_readTableWord (readTableWord_of_decodeTableWord h)).symm,
    fun w => ⟨?noItem, ?refused⟩⟩
  case noItem =>
    intro hnone
    obtain ⟨p, -, hp⟩ | hrefused := readTableWord_cases w
    · exact absurd hp (hnone p)
    · exact hrefused
  case refused =>
    rintro hrefused p rfl
    cases hrefused.symm.trans (readTableWord_tableWord p)

/-- The widest port has 17 wires, and the unit identifier takes two bits more. -/
theorem tableWord_lt (p : PortItem) : p.tableWord < 2 ^ 19 := by
  cases p with
  | encIn w | decIn w | dnIn w | upIn w =>
    have := w.isLt
    simp only [PortItem.tableWord, PortItem.wires, PortItem.uid]
    omega

theorem decodeTableWord_encode (i : Instr) : decodeTableWord 24 (encode i).tableWord = some i := by
  have hlt := tableWord_lt (encode i)
  have hread := readTableWord_tableWord (encode i)
  rw [← Nat.mod_eq_of_lt (hlt.trans (by decide : 2 ^ 19 < 2 ^ 24))] at hread
  rw [decodeTableWord_of_readTableWord hread, decode_encode]

/-- Three bytes hold any table word. -/
theorem decodeBytes_encodeBytes_append (i : Instr) (rest : List (BitVec 8)) :
    decodeBytes (encodeBytes i ++ rest) = .ok (i, rest) := by
  have hlt := tableWord_lt (encode i)
  have hbytes : (BitVec.ofNat 8 (encode i).tableWord).toNat + 256 * (BitVec.ofNat 8 ((encode i).tableWord / 256)).toNat +
      65536 * (BitVec.ofNat 8 ((encode i).tableWord / 65536)).toNat = (encode i).tableWord := by
    simp only [BitVec.toNat_ofNat]
    omega
  simp only [encodeBytes, List.cons_append, List.nil_append, decodeBytes, hbytes, readTableWord_tableWord, decode_encode]

/-- Settles O49: 24 bits hold every table word, as one number and as three bytes. -/
theorem tableWordRoundTrip : Obligations.TableWordRoundTrip :=
  fun i _ => ⟨decodeTableWord_encode i, decodeBytes_encodeBytes_append i⟩

/-- Settles O51: each word's fields are read off its bits. -/
theorem itemWordsOfTheSpec : Obligations.ItemWordsOfTheSpec := by
  unfold Obligations.ItemWordsOfTheSpec
  decide

end Sys2Proof
end

section
/-! One step by the head of the host's script (spec/70_reset_and_hazards.md R151; log entries 3, 5, 10 and 20). -/

namespace Sys2Proof.Machine

variable {s : State} {rest : List HostEvent}

theorem step_of_host_nil (h : s.host = []) : step s = .next (upOwnStep s) := by
  simp only [step, takeTurn, h]

theorem step_of_host_gap (h : s.host = .gap :: rest) : step s = .next (upOwnStep { s with host := rest }) := by
  simp only [step, takeTurn, h]

theorem step_of_host_rst {c : Option PortItem} (h : s.host = .rst c :: rest) :
    step s = .next (rstEvent (driveThroughRst c { s with host := rest })) := by
  simp only [step, takeTurn, h]

theorem step_of_host_item {p : PortItem} (h : s.host = .item p :: rest) :
    step s = exec (decode p) { s with host := rest } := by
  simp only [step, takeTurn, h]

/-- An instruction whose item the host presents is the one that runs. -/
theorem step_of_host_encode {i : Instr} (h : s.host = .item (encode i) :: rest) :
    step s = exec i { s with host := rest } := by
  rw [step_of_host_item h, decode_encode]

/-- A presented item runs in the state without it. -/
theorem step_present (p : PortItem) (s : State) : step (present p s) = exec (decode p) s :=
  step_of_host_item (present_host p s)

/-- A number that reads as an item presents the item. -/
theorem withFetchWord_of_readTableWord {s : State} {nbits w : Nat} {p : PortItem}
    (h : readTableWord (w % 2 ^ nbits) = .ok p) : s.withFetchWord nbits w = present p s := by
  simp only [State.withFetchWord, h]

theorem upOwnStep_of_upPending (h : s.upPending = true) : upOwnStep s = upRepeat s := if_pos h

theorem upOwnStep_of_not_upPending (h : s.upPending = false) : upOwnStep s = s := by simp [upOwnStep, h]

theorem dnAccept_of_evenIndexed {first : Bool} (h : evenIndexed first s = true) (x : LinearSample) :
    dnAccept first x s = dnRetain first x s := if_pos h

theorem dnAccept_of_not_evenIndexed {first : Bool} (h : evenIndexed first s = false) (x : LinearSample) :
    dnAccept first x s = dnComplete s := by simp [dnAccept, h]

/-- Which index a sample has depends on `dn_phase` alone of the state. -/
theorem evenIndexed_congr {t : State} (h : t.dnPhase = s.dnPhase) (first : Bool) :
    evenIndexed first t = evenIndexed first s := by simp only [evenIndexed, h]

/-- The repeat's state as R114 writes it. -/
theorem upRepeat_eq (s : State) :
    upRepeat s = { s with upOut := s.upOut ++ [⟨false, s.upHold⟩], upPending := false } := rfl

end Sys2Proof.Machine
end

section
/-! The statements that follow an event through one step. -/

namespace Sys2Proof.Machine

/-- Settles O38: the presented item is taken from the script and decoded by its port. -/
theorem stepRunsTheDecodedItem : Obligations.StepRunsTheDecodedItem := fun _ _ _ => step_of_host_item

/-- Settles O39: a word that decodes presents its item, and the step decodes that. -/
theorem fetchWordRunsNext : Obligations.FetchWordRunsNext := by
  intro s nbits w i h
  rw [withFetchWord_of_readTableWord (readTableWord_of_decodeTableWord h), step_present, decode_encode]

/-- Settles O1: ENC drives its port, and the byte there is the pseudocode's with quotients and remainders for its shifts
and masks. -/
theorem encDrivesThePseudocodeByte : Obligations.EncDrivesThePseudocodeByte := by
  refine fun x s => ⟨exec_enc x s, ?_⟩
  have hbyte := encodeSample_toNat .hw x
  simp only [mantissa_eq, segmentExponent, tableIndex_eq] at hbyte
  exact hbyte

/-- Settles O2: DEC drives its port, and the table's length leaves no byte without an entry. -/
theorem decDrivesTheTableEntry : Obligations.DecDrivesTheTableEntry := by
  refine fun b s => ⟨exec_dec b s, ?_⟩
  have hlt := toNat_lt_decodeTable_length b
  simp [State.decOut, decodeSample, decodeEntry, hlt]

/-- Settles O14: both output ports are functions of the input ports, which are all that the two units write. -/
theorem codecUnitsHoldNoState : Obligations.CodecUnitsHoldNoState := by
  refine ⟨fun s t h => congrArg (encodeSample .hw) h, fun s t h => congrArg (decodeSample .hw) h, ?frame, ?enc, ?dec⟩
  case frame =>
    rintro i s t (⟨x, rfl⟩ | ⟨b, rfl⟩) h
    · cases (exec_enc x s).symm.trans h
      simp
    · cases (exec_dec b s).symm.trans h
      simp
  case enc =>
    intro x s t h
    cases (exec_enc x s).symm.trans h
    exact driveEncIn_decIn x s
  case dec =>
    intro b s t h
    cases (exec_dec b s).symm.trans h
    exact driveDecIn_encIn b s

/-- Settles O16: `dn.accept` writes DNENC's own fields and its output stream. -/
theorem dnencLeavesTheRestAlone : Obligations.DnencLeavesTheRestAlone := by
  intro first x s t h
  cases (exec_dnenc first x s).symm.trans h
  simp

/-- Settles O25: an item that waits is presented again over an unchanged rest, one that is accepted leaves the script. -/
theorem decupLeavesTheRestAlone : Obligations.DecupLeavesTheRestAlone := by
  intro first b s t h
  cases hpending : s.upPending with
  | false =>
    cases (exec_decup_of_not_upPending hpending first b).symm.trans h
    simp
  | true =>
    cases (exec_decup_of_upPending hpending first b).symm.trans h
    simp

/-- Exactly one of accepting and repeating is enabled, by `up_pending` (R114). -/
theorem accepting_or_repeating_enabled (s : State) :
    (s.upInReady = true ∧ s.owedCopy = none) ∨ (s.upInReady = false ∧ s.owedCopy ≠ none) := by
  cases hpending : s.upPending <;> simp [State.upInReady, State.owedCopy, hpending]

/-- Settles O23: an empty script and a gap both leave the turn to DECUP's own step, which repeats what is owed. -/
theorem decupRepeatStep : Obligations.DecupRepeatStep := by
  refine ⟨?owedNil, ?owedGap, ?idleGap, ?idleNil, accepting_or_repeating_enabled⟩
  case owedNil =>
    intro s hpending hhost
    exact (step_of_host_nil hhost).trans (congrArg _ (upOwnStep_of_upPending hpending))
  case owedGap =>
    intro s rest hpending hhost
    exact (step_of_host_gap hhost).trans (congrArg _ (upOwnStep_of_upPending hpending))
  case idleGap =>
    intro s rest hpending hhost
    exact (step_of_host_gap hhost).trans (congrArg _ (upOwnStep_of_not_upPending hpending))
  case idleNil =>
    intro s hpending hhost
    exact (step_of_host_nil hhost).trans (congrArg _ (upOwnStep_of_not_upPending hpending))

/-- Settles O24: the first step repeats and presents the item again, the second finds nothing owed and accepts it. -/
theorem decupHoldLosesNothing : Obligations.DecupHoldLosesNothing := by
  intro first b s hpending
  have hwait := exec_decup_of_upPending hpending first b
  have haccept := exec_decup_of_not_upPending (upRepeat_upPending s) first b
  refine ⟨hwait, ?_⟩
  have hfirst : step (present (encode (.decup first b)) s) = .next (present (encode (.decup first b)) (upRepeat s)) := by
    rw [step_present, decode_encode, hwait]
  have hsecond : step (present (encode (.decup first b)) (upRepeat s)) = .next (upAccept first b (upRepeat s)) := by
    rw [step_present, decode_encode, haccept]
  calc run 2 (present (encode (.decup first b)) s)
    _ = .next (upAccept first b (upRepeat s)) := by rw [run_succ_of_step hfirst, run_succ_of_step hsecond, run]
    _ = _ := by simp [upAccept_eq, upRepeat_eq, hpending]

/-- Settles O34: the free values are the ones the hold registers become, and a coinciding item shows on its input port
or nowhere. -/
theorem resetEventStep : Obligations.ResetEventStep := by
  intro s c rest hhost
  refine ⟨Config.freeDnHold s.freeIdx, Config.freeUpHold s.freeIdx, s.freeIdx + 1, ?_⟩
  rw [step_of_host_rst hhost]
  cases c with
  | none => rfl
  | some p =>
    cases p with
    | encIn w | decIn w | dnIn w | upIn w => rfl

/-- Settles O35: each value stands in State.reset or in Config.hw. -/
theorem stateAfterReset : Obligations.StateAfterReset :=
  ⟨rfl, rfl, rfl, rfl, rfl, rfl, rfl, rfl, rfl, rfl, by decide +kernel⟩

/-- Settles O40: nothing waits, nothing is owed and nothing has been emitted. -/
theorem resetMeetsTheInvariant : Obligations.ResetMeetsTheInvariant where
  ofirst_waits := nofun
  owed_is_last := nofun
  emitted_range := nofun

end Sys2Proof.Machine
end

section
/-! The cells of the biased magnitudes (spec/40_mulaw_encode.md R77): the exponent is the place of the leading one, the
mantissa the four bits below it, and the two name the cell. -/

namespace Sys2Proof.Machine

theorem biasedMagnitude_hw (x : LinearSample) : biasedMagnitude .hw x = min x.toInt.natAbs 32635 + 132 := rfl

theorem le_biasedMagnitude_hw (x : LinearSample) : 132 ≤ biasedMagnitude .hw x := Nat.le_add_left _ _

theorem biasedMagnitude_hw_le (x : LinearSample) : biasedMagnitude .hw x ≤ 32767 :=
  Nat.add_le_add_right (clampMagnitude_hw_le _) 132

/-- The lookup is of the bits from bit 7 up, whose leading one is seven places lower. -/
theorem segmentExponent_hw_add_seven {g : Nat} (hlow : 128 ≤ g) (hhigh : g ≤ 32767) :
    segmentExponent .hw g + 7 = Nat.log2 g := by
  have hindex : tableIndex g = g / 2 ^ 7 := by rw [tableIndex_eq]; omega
  have hlog : 7 ≤ Nat.log 2 g := Nat.le_log_of_pow_le (by decide) hlow
  rw [segmentExponent, hindex, encodeEntry_hw_toNat _ (by omega), Nat.log2_eq_log_two, Nat.log2_eq_log_two,
    Nat.log_div_base_pow]
  omega

theorem segmentExponent_hw_mono {g g' : Nat} (hlow : 128 ≤ g) (h : g ≤ g') (hhigh : g' ≤ 32767) :
    segmentExponent .hw g ≤ segmentExponent .hw g' := by
  have hexp := segmentExponent_hw_add_seven hlow (h.trans hhigh)
  have hexp' := segmentExponent_hw_add_seven (hlow.trans h) hhigh
  have hlog : Nat.log2 g ≤ Nat.log2 g' := by
    rw [Nat.log2_eq_log_two, Nat.log2_eq_log_two]
    exact Nat.log_mono_right h
  omega

/-- The bits from the mantissa up are the leading one and the mantissa. -/
theorem div_two_pow_eq_add_mantissa {g : Nat} (hlow : 128 ≤ g) (hhigh : g ≤ 32767) :
    g / 2 ^ (segmentExponent .hw g + 3) = 16 + mantissa (segmentExponent .hw g) g := by
  obtain ⟨hle, hlt⟩ := (Nat.log2_eq_iff (by omega)).mp (segmentExponent_hw_add_seven hlow hhigh).symm
  rw [mantissa_eq]
  generalize segmentExponent .hw g = e at *
  have hquot : 16 ≤ g / 2 ^ (e + 3) := by
    rw [Nat.le_div_iff_mul_le (by positivity)]
    calc 16 * 2 ^ (e + 3) = 2 ^ (e + 7) := by ring
      _ ≤ g := hle
  have hquot' : g / 2 ^ (e + 3) < 32 := by
    rw [Nat.div_lt_iff_lt_mul (by positivity)]
    calc g < 2 ^ (e + 7 + 1) := hlt
      _ = 32 * 2 ^ (e + 3) := by ring
  omega

/-- The exponent and the mantissa name the cell. -/
theorem mem_cell {g : Nat} (hlow : 128 ≤ g) (hhigh : g ≤ 32767) :
    (16 + mantissa (segmentExponent .hw g) g) * 2 ^ (segmentExponent .hw g + 3) ≤ g ∧
      g < (17 + mantissa (segmentExponent .hw g) g) * 2 ^ (segmentExponent .hw g + 3) := by
  have hpos : 0 < 2 ^ (segmentExponent .hw g + 3) := by positivity
  have hquot := div_two_pow_eq_add_mantissa hlow hhigh
  exact ⟨(Nat.le_div_iff_mul_le hpos).mp hquot.ge, (Nat.div_lt_iff_lt_mul hpos).mp (by omega)⟩

/-- No other pair names the cell. -/
theorem fields_of_mem_cell {g e m : Nat} (he : e < 8) (hm : m < 16) (hle : (16 + m) * 2 ^ (e + 3) ≤ g)
    (hlt : g < (17 + m) * 2 ^ (e + 3)) : segmentExponent .hw g = e ∧ mantissa e g = m := by
  have hpos : 0 < 2 ^ (e + 3) := by positivity
  have hquot : g / 2 ^ (e + 3) = 16 + m :=
    Nat.le_antisymm (Nat.le_of_lt_succ ((Nat.div_lt_iff_lt_mul hpos).mpr (by convert hlt using 2; omega)))
      ((Nat.le_div_iff_mul_le hpos).mpr hle)
  have hlow : 2 ^ (e + 7) ≤ g :=
    calc 2 ^ (e + 7) = 16 * 2 ^ (e + 3) := by ring
      _ ≤ (16 + m) * 2 ^ (e + 3) := Nat.mul_le_mul_right _ (by omega)
      _ ≤ g := hle
  have hhigh : g < 2 ^ (e + 7 + 1) :=
    calc g < (17 + m) * 2 ^ (e + 3) := hlt
      _ ≤ 32 * 2 ^ (e + 3) := Nat.mul_le_mul_right _ (by omega)
      _ = 2 ^ (e + 7 + 1) := by ring
  have hlow' : 2 ^ 7 ≤ 2 ^ (e + 7) := Nat.pow_le_pow_right (by decide) (by omega)
  have hhigh' : 2 ^ (e + 7 + 1) ≤ 2 ^ 15 := Nat.pow_le_pow_right (by decide) (by omega)
  have hlog := (Nat.log2_eq_iff (by omega : g ≠ 0)).mpr ⟨hlow, hhigh⟩
  have hexp := segmentExponent_hw_add_seven (g := g) (by omega) (by omega)
  exact ⟨by omega, by rw [mantissa_eq, hquot]; omega⟩

/-- Settles O7: the biased magnitudes of the samples lie where each has its cell. -/
theorem segmentCellOfEverySample : Obligations.SegmentCellOfEverySample := by
  intro x
  have hlow := le_biasedMagnitude_hw x
  have hhigh := biasedMagnitude_hw_le x
  exact ⟨hlow, hhigh, segmentExponent_hw_add_seven (by omega) hhigh, mem_cell (by omega) hhigh⟩

end Sys2Proof.Machine
end

section
/-! The fields of a byte (spec/30_encoding.md R51, R55) and of the byte that a sample is encoded to. -/

namespace Sys2Proof.Machine

theorem byteSign_eq (b : CompandedByte) : byteSign b = decide ((255 - b.toNat) / 128 = 1) := by
  have hlt := b.isLt
  rw [byteSign, BitVec.getLsbD, Nat.testBit_eq_decide_div_mod_eq, BitVec.toNat_not]
  exact decide_eq_decide.mpr (by omega)

theorem byteExponent_eq (b : CompandedByte) : byteExponent b = (255 - b.toNat) / 16 % 8 := by
  have hlt := b.isLt
  rw [byteExponent, BitVec.extractLsb'_toNat, BitVec.toNat_not, Nat.shiftRight_eq_div_pow]

theorem byteMantissa_eq (b : CompandedByte) : byteMantissa b = (255 - b.toNat) % 16 := by
  rw [byteMantissa, BitVec.extractLsb'_toNat, BitVec.toNat_not, Nat.shiftRight_zero]

/-- `E` of R70 for a sample on this hardware. -/
def sampleExponent (x : LinearSample) : Nat := segmentExponent .hw (biasedMagnitude .hw x)

/-- `M` of R70 for a sample on this hardware. -/
def sampleMantissa (x : LinearSample) : Nat := mantissa (sampleExponent x) (biasedMagnitude .hw x)

theorem sampleExponent_lt (x : LinearSample) : sampleExponent x < 8 := segmentExponent_lt _ _

theorem sampleMantissa_lt (x : LinearSample) : sampleMantissa x < 16 := mantissa_lt _ _

theorem encodeSample_hw_toNat (x : LinearSample) :
    (encodeSample .hw x).toNat = 255 - (signField x + 16 * sampleExponent x + sampleMantissa x) :=
  encodeSample_toNat .hw x

/-- The three fields of the complement of a sample's byte (R55). -/
theorem fields_encodeSample_hw (x : LinearSample) :
    (255 - (encodeSample .hw x).toNat) / 128 = (if x.toInt < 0 then 1 else 0) ∧
      (255 - (encodeSample .hw x).toNat) / 16 % 8 = sampleExponent x ∧
      (255 - (encodeSample .hw x).toNat) % 16 = sampleMantissa x := by
  have he := sampleExponent_lt x
  have hm := sampleMantissa_lt x
  rw [encodeSample_hw_toNat, signField]
  split <;> omega

/-- Settles O8: the fields of the complement are the sample's, and those of the byte itself are their distances from the
greatest value. -/
theorem fieldsOfTheEncodedByte : Obligations.FieldsOfTheEncodedByte := by
  intro x
  obtain ⟨hsign, hexp, hmant⟩ := fields_encodeSample_hw x
  have hlt := (encodeSample .hw x).isLt
  refine ⟨?bit7, ?bits64, ?bits30, ?sign, (byteExponent_eq _).trans hexp, (byteMantissa_eq _).trans hmant⟩
  case bit7 =>
    rw [BitVec.getLsbD, Nat.testBit_eq_decide_div_mod_eq, decide_eq_decide]
    split at hsign <;> omega
  case bits64 => change _ + sampleExponent x = 7; omega
  case bits30 => change _ + sampleMantissa x = 15; omega
  case sign =>
    rw [byteSign_eq, decide_eq_decide, hsign]
    split <;> simp [*]

/-- A magnitude of `CLIP` or more has the greatest biased magnitude. -/
theorem biasedMagnitude_hw_of_le {x : LinearSample} (h : 32635 ≤ x.toInt.natAbs) : biasedMagnitude .hw x = 32767 := by
  rw [biasedMagnitude_hw, Nat.min_eq_right h]

/-- Settles O9: the greatest biased magnitude has exponent 7 and mantissa 15, so the complement's low bits are all 1. -/
theorem largeMagnitudesAreClamped : Obligations.LargeMagnitudesAreClamped := by
  intro x h
  have hexp : sampleExponent x = 7 := by rw [sampleExponent, biasedMagnitude_hw_of_le h]; decide +kernel
  have hmant : sampleMantissa x = 15 := by rw [sampleMantissa, hexp, biasedMagnitude_hw_of_le h]; decide
  apply BitVec.eq_of_toNat_eq
  rw [encodeSample_hw_toNat, hexp, hmant, signField]
  split <;> rfl

/-- Samples of different sign and one biased magnitude differ in the sign field alone. -/
theorem encodeSample_hw_xor_of_neg_of_nonneg {x y : LinearSample} (hx : x.toInt < 0) (hy : 0 ≤ y.toInt)
    (h : biasedMagnitude .hw x = biasedMagnitude .hw y) : encodeSample .hw x ^^^ encodeSample .hw y = 0x80 := by
  have hxor : ∀ e < 8, ∀ m < 16,
      ~~~BitVec.ofNat 8 (assemble 0x80 e m) ^^^ ~~~BitVec.ofNat 8 (assemble 0 e m) = 0x80#8 := by decide
  have hsx : signField x = 0x80 := if_pos hx
  have hsy : signField y = 0 := if_neg hy.not_gt
  simp only [encodeSample, h, hsx, hsy]
  exact hxor _ (segmentExponent_lt _ _) _ (mantissa_lt _ _)

/-- Settles O12: a sample and its negative have one magnitude, -32768 and 32767 have one after the clamp, and in each pair
one sample is negative. -/
theorem encodeSignSymmetry : Obligations.EncodeSignSymmetry := by
  refine ⟨fun x hzero hmin => ?opposite, encodeSample_hw_xor_of_neg_of_nonneg (by decide) (by decide) (by decide)⟩
  case opposite =>
    have hneg : (-x).toInt = -x.toInt := BitVec.toInt_neg_of_ne_intMin hmin
    have hmag : biasedMagnitude .hw x = biasedMagnitude .hw (-x) := by simp [biasedMagnitude_hw, hneg]
    have hne : x.toInt ≠ 0 := fun h => hzero (BitVec.toInt_inj.mp h)
    obtain hx | hx := lt_or_gt_of_ne hne
    · exact encodeSample_hw_xor_of_neg_of_nonneg hx (by omega) hmag
    · rw [BitVec.xor_comm]
      exact encodeSample_hw_xor_of_neg_of_nonneg (by omega) hx.le hmag.symm

end Sys2Proof.Machine
end

section
/-! The order, the symmetry and the range of `DecodeTable` (spec/41_mulaw_decode.md R88). -/

namespace Sys2Proof.Machine

/-- The midpoints rise with the seven bits of exponent and mantissa: within an exponent with the mantissa, and from the
last cell of one exponent to the first of a higher one. -/
theorem cellMidpoint_lt {e m e' m' : Nat} (hm : m < 16) (hm' : m' < 16) (h : 16 * e + m < 16 * e' + m') :
    cellMidpoint e m < cellMidpoint e' m' := by
  unfold cellMidpoint
  obtain rfl | he : e = e' ∨ e + 1 ≤ e' := by omega
  · exact mul_lt_mul_of_pos_right (by omega) (by positivity)
  · calc (8 * m + 132 : Int) * 2 ^ e < 264 * 2 ^ e := mul_lt_mul_of_pos_right (by omega) (by positivity)
      _ = 132 * 2 ^ (e + 1) := by ring
      _ ≤ 132 * 2 ^ e' := mul_le_mul_of_nonneg_left (pow_le_pow_right₀ (by decide) he) (by decide)
      _ ≤ (8 * m' + 132) * 2 ^ e' := mul_le_mul_of_nonneg_right (by omega) (by positivity)

theorem cellMidpoint_le_cellMidpoint {e m e' m' : Nat} (hm : m < 16) (hm' : m' < 16)
    (h : 16 * e + m ≤ 16 * e' + m') : cellMidpoint e m ≤ cellMidpoint e' m' := by
  obtain h | h := h.lt_or_eq
  · exact (cellMidpoint_lt hm hm' h).le
  · obtain ⟨rfl, rfl⟩ : e = e' ∧ m = m' := by omega
    exact le_rfl

/-- The midpoint of a byte's cell, which is its decoded magnitude and the bias (R86). -/
def byteMidpoint (b : CompandedByte) : Int := cellMidpoint ((255 - b.toNat) / 16 % 8) ((255 - b.toNat) % 16)

theorem le_byteMidpoint (b : CompandedByte) : 132 ≤ byteMidpoint b := le_cellMidpoint _ _

theorem byteMidpoint_le (b : CompandedByte) : byteMidpoint b ≤ 32256 :=
  cellMidpoint_le (Nat.mod_lt _ (by decide)) (Nat.mod_lt _ (by decide))

theorem byteMidpoint_lt {a b : CompandedByte} (h : (255 - a.toNat) % 128 < (255 - b.toNat) % 128) :
    byteMidpoint a < byteMidpoint b :=
  cellMidpoint_lt (Nat.mod_lt _ (by decide)) (Nat.mod_lt _ (by decide)) (by omega)

theorem decodeSample_hw_of_ge {b : CompandedByte} (h : 128 ≤ b.toNat) :
    (decodeSample .hw b).toInt = byteMidpoint b - 132 := by
  rw [decodeSample_hw_toInt, if_pos (by omega), byteMidpoint]

theorem decodeSample_hw_of_lt {b : CompandedByte} (h : b.toNat < 128) :
    (decodeSample .hw b).toInt = 132 - byteMidpoint b := by
  rw [decodeSample_hw_toInt, if_neg (by omega), byteMidpoint]

/-- Bit 7 alone changes. -/
theorem toNat_xor_0x80 : ∀ b : CompandedByte,
    (b ^^^ 0x80).toNat = if b.toNat < 128 then b.toNat + 128 else b.toNat - 128 := by
  decide +kernel

theorem byteMidpoint_xor_0x80 (b : CompandedByte) : byteMidpoint (b ^^^ 0x80) = byteMidpoint b := by
  have hlt := b.isLt
  have hxor := toNat_xor_0x80 b
  have hexp : (255 - (b ^^^ 0x80).toNat) / 16 % 8 = (255 - b.toNat) / 16 % 8 := by split at hxor <;> omega
  have hmant : (255 - (b ^^^ 0x80).toNat) % 16 = (255 - b.toNat) % 16 := by split at hxor <;> omega
  rw [byteMidpoint, hexp, hmant, byteMidpoint]

theorem decodeSample_hw_xor_0x80 (b : CompandedByte) :
    (decodeSample .hw (b ^^^ 0x80)).toInt = -(decodeSample .hw b).toInt := by
  have hxor := toNat_xor_0x80 b
  have hlt := b.isLt
  obtain hb | hb := lt_or_ge b.toNat 128
  · rw [if_pos hb] at hxor
    rw [decodeSample_hw_of_lt hb, decodeSample_hw_of_ge (by omega), byteMidpoint_xor_0x80]
    ring
  · rw [if_neg hb.not_gt] at hxor
    rw [decodeSample_hw_of_ge hb, decodeSample_hw_of_lt (by omega), byteMidpoint_xor_0x80]
    ring

/-- No decoded sample lies outside the table's range (R88(c)). -/
theorem decodeSample_hw_range (b : CompandedByte) :
    -32124 ≤ (decodeSample .hw b).toInt ∧ (decodeSample .hw b).toInt ≤ 32124 := by
  have hlow := le_byteMidpoint b
  have hhigh := byteMidpoint_le b
  obtain hb | hb := lt_or_ge b.toNat 128
  · rw [decodeSample_hw_of_lt hb]; omega
  · rw [decodeSample_hw_of_ge hb]; omega

theorem decodeSample_hw_falls {a b : CompandedByte} (ha : 128 ≤ a.toNat) (h : a.toNat < b.toNat) :
    (decodeSample .hw b).toInt < (decodeSample .hw a).toInt := by
  have hlt := b.isLt
  have hmid : byteMidpoint b < byteMidpoint a := byteMidpoint_lt (by omega)
  rw [decodeSample_hw_of_ge ha, decodeSample_hw_of_ge (by omega)]
  omega

theorem decodeSample_hw_rises {a b : CompandedByte} (hb : b.toNat < 128) (h : a.toNat < b.toNat) :
    (decodeSample .hw a).toInt < (decodeSample .hw b).toInt := by
  have hmid : byteMidpoint b < byteMidpoint a := byteMidpoint_lt (by omega)
  rw [decodeSample_hw_of_lt hb, decodeSample_hw_of_lt (by omega)]
  omega

theorem decodeSample_hw_nonneg {b : CompandedByte} (h : 128 ≤ b.toNat) : 0 ≤ (decodeSample .hw b).toInt := by
  have := le_byteMidpoint b
  rw [decodeSample_hw_of_ge h]
  omega

/-- Below 0x7F a byte decodes to less than the 0 at 0x7F. -/
theorem decodeSample_hw_neg {b : CompandedByte} (h : b.toNat < 127) : (decodeSample .hw b).toInt < 0 :=
  decodeSample_hw_rises (b := 0x7F) (by decide) h

/-- Above the 0 at 0xFF, from 0x80 on, a byte decodes to more. -/
theorem decodeSample_hw_pos {b : CompandedByte} (h : 128 ≤ b.toNat) (h' : b.toNat < 255) :
    0 < (decodeSample .hw b).toInt :=
  decodeSample_hw_falls (b := 0xFF) h h'

theorem decodeSample_hw_eq_zero_iff (b : CompandedByte) : decodeSample .hw b = 0 ↔ b = 0xFF ∨ b = 0x7F := by
  constructor
  · intro hzero
    have hint : (decodeSample .hw b).toInt = 0 := congrArg BitVec.toInt hzero
    obtain hb | hb | hb : b.toNat < 127 ∨ b.toNat = 127 ∨ 128 ≤ b.toNat := by omega
    · exact absurd hint (decodeSample_hw_neg hb).ne
    · exact .inr (BitVec.eq_of_toNat_eq hb)
    · obtain hff | hff : b.toNat = 255 ∨ b.toNat < 255 := by have := b.isLt; omega
      · exact .inl (BitVec.eq_of_toNat_eq hff)
      · exact absurd hint (decodeSample_hw_pos hb hff).ne'
  · rintro (rfl | rfl) <;> rfl

/-- Within a sign the order is strict, and bytes of different sign but for the two zeros decode apart. -/
theorem decodeSample_hw_toInt_ne_of_lt {a b : CompandedByte} (ha : a.toNat ≠ 127) (hb : b.toNat ≠ 127)
    (h : a.toNat < b.toNat) : (decodeSample .hw a).toInt ≠ (decodeSample .hw b).toInt := by
  obtain hneg | hpos | ⟨hneg, hpos⟩ : b.toNat < 127 ∨ 128 ≤ a.toNat ∨ a.toNat < 127 ∧ 128 ≤ b.toNat := by omega
  · exact (decodeSample_hw_rises (by omega) h).ne
  · exact (decodeSample_hw_falls hpos h).ne'
  · exact ((decodeSample_hw_neg hneg).trans_le (decodeSample_hw_nonneg hpos)).ne

theorem decodeSample_hw_injective {a b : CompandedByte} (ha : a ≠ 0x7F) (hb : b ≠ 0x7F)
    (h : decodeSample .hw a = decodeSample .hw b) : a = b := by
  have ha' : a.toNat ≠ 127 := fun heq => ha (BitVec.eq_of_toNat_eq heq)
  have hb' : b.toNat ≠ 127 := fun heq => hb (BitVec.eq_of_toNat_eq heq)
  obtain hlt | heq | hlt := lt_trichotomy a.toNat b.toNat
  · exact absurd (congrArg BitVec.toInt h) (decodeSample_hw_toInt_ne_of_lt ha' hb' hlt)
  · exact BitVec.eq_of_toNat_eq heq
  · exact absurd (congrArg BitVec.toInt h.symm) (decodeSample_hw_toInt_ne_of_lt hb' ha' hlt)

/-- Settles O5: the midpoint does not see bit 7, rises with the low seven bits of the complement, and is 132 where those
are 0. -/
theorem decodeTableSymmetryRangeOrder : Obligations.DecodeTableSymmetryRangeOrder :=
  ⟨decodeSample_hw_xor_0x80, decodeSample_hw_eq_zero_iff, fun _ _ => decodeSample_hw_injective, decodeSample_hw_range,
    fun _ _ => decodeSample_hw_falls, fun _ _ hb => decodeSample_hw_rises (Nat.lt_succ_of_le hb)⟩

end Sys2Proof.Machine
end

section
/-! Decoding what was encoded, and encoding what was decoded (spec/40_mulaw_encode.md R78). -/

namespace Sys2Proof.Machine

/-- The midpoint of the cell that a sample's biased magnitude lies in. -/
def sampleMidpoint (x : LinearSample) : Int := cellMidpoint (sampleExponent x) (sampleMantissa x)

theorem byteMidpoint_encodeSample (x : LinearSample) : byteMidpoint (encodeSample .hw x) = sampleMidpoint x := by
  obtain ⟨-, hexp, hmant⟩ := fields_encodeSample_hw x
  rw [byteMidpoint, hexp, hmant, sampleMidpoint]

/-- The round trip of a sample is its cell's midpoint without the bias, with the sample's sign. -/
theorem decodeSample_encodeSample_toInt (x : LinearSample) : (decodeSample .hw (encodeSample .hw x)).toInt =
    if x.toInt < 0 then 132 - sampleMidpoint x else sampleMidpoint x - 132 := by
  obtain ⟨hsign, -, -⟩ := fields_encodeSample_hw x
  have hlt := (encodeSample .hw x).isLt
  rw [← byteMidpoint_encodeSample]
  by_cases hx : x.toInt < 0
  · rw [if_pos hx] at hsign ⊢
    exact decodeSample_hw_of_lt (by omega)
  · rw [if_neg hx] at hsign ⊢
    exact decodeSample_hw_of_ge (by omega)

theorem decodeSample_encodeSample_natAbs (x : LinearSample) :
    ((decodeSample .hw (encodeSample .hw x)).toInt.natAbs : Int) = sampleMidpoint x - 132 := by
  rw [decodeSample_hw_natAbs]
  exact congrArg (· - 132) (byteMidpoint_encodeSample x)

/-- A cell reaches from half a step below its midpoint to just under half a step above. -/
theorem biasedMagnitude_sub_sampleMidpoint (x : LinearSample) :
    -2 ^ (sampleExponent x + 2) ≤ (biasedMagnitude .hw x : Int) - sampleMidpoint x ∧
      (biasedMagnitude .hw x : Int) - sampleMidpoint x < 2 ^ (sampleExponent x + 2) := by
  have hlow : 128 ≤ biasedMagnitude .hw x := le_trans (by decide) (le_biasedMagnitude_hw x)
  obtain ⟨hle, hlt⟩ := mem_cell hlow (biasedMagnitude_hw_le x)
  change (16 + sampleMantissa x) * 2 ^ (sampleExponent x + 3) ≤ _ at hle
  change _ < (17 + sampleMantissa x) * 2 ^ (sampleExponent x + 3) at hlt
  rw [sampleMidpoint, cellMidpoint_eq_mul_pow]
  zify at hle hlt
  rw [pow_succ] at hle hlt
  constructor <;> linarith

/-- The clamped sample is the biased magnitude without the bias, with the sample's sign. -/
theorem clampSample_hw (x : LinearSample) : clampSample .hw x =
    if x.toInt < 0 then 132 - (biasedMagnitude .hw x : Int) else biasedMagnitude .hw x - 132 := by
  have hclip : Config.hw.clip = 32635 := rfl
  rw [clampSample, biasedMagnitude_hw, hclip]
  split <;> omega

theorem clampSample_hw_natAbs (x : LinearSample) : ((clampSample .hw x).natAbs : Int) = biasedMagnitude .hw x - 132 := by
  have hlow := le_biasedMagnitude_hw x
  rw [clampSample_hw]
  split <;> omega

/-- Settles O10: both differences are that of the biased magnitude and its cell's midpoint, up to sign. -/
theorem roundTripWithinHalfAStep : Obligations.RoundTripWithinHalfAStep := by
  intro x y c half
  obtain ⟨hle, hlt⟩ : -half ≤ _ ∧ _ < half := biasedMagnitude_sub_sampleMidpoint x
  have hy : (y.natAbs : Int) = _ := decodeSample_encodeSample_natAbs x
  have hc : (c.natAbs : Int) = _ := clampSample_hw_natAbs x
  refine ⟨?distance, by omega, by omega⟩
  case distance =>
    have hysign : y = _ := decodeSample_encodeSample_toInt x
    have hcsign : c = _ := clampSample_hw x
    split at hysign <;> omega

/-- A larger magnitude has no lower cell. -/
theorem sampleMidpoint_mono {x1 x2 : LinearSample} (h : x1.toInt.natAbs ≤ x2.toInt.natAbs) :
    sampleMidpoint x1 ≤ sampleMidpoint x2 := by
  have hmag : biasedMagnitude .hw x1 ≤ biasedMagnitude .hw x2 := by
    rw [biasedMagnitude_hw, biasedMagnitude_hw]
    omega
  have hlow1 : 128 ≤ biasedMagnitude .hw x1 := le_trans (by decide) (le_biasedMagnitude_hw x1)
  have hhigh2 := biasedMagnitude_hw_le x2
  have hquot1 : _ = 16 + sampleMantissa x1 := div_two_pow_eq_add_mantissa hlow1 (hmag.trans hhigh2)
  have hquot2 : _ = 16 + sampleMantissa x2 := div_two_pow_eq_add_mantissa (hlow1.trans hmag) hhigh2
  have hm1 := sampleMantissa_lt x1
  have hm2 := sampleMantissa_lt x2
  apply cellMidpoint_le_cellMidpoint hm1 hm2
  obtain hexp | hexp : sampleExponent x1 < sampleExponent x2 ∨ sampleExponent x1 = sampleExponent x2 :=
    (segmentExponent_hw_mono hlow1 hmag hhigh2).lt_or_eq
  · omega
  · change biasedMagnitude .hw x1 / 2 ^ (sampleExponent x1 + 3) = _ at hquot1
    change biasedMagnitude .hw x2 / 2 ^ (sampleExponent x2 + 3) = _ at hquot2
    have hdiv := Nat.div_le_div_right (c := 2 ^ (sampleExponent x2 + 3)) hmag
    rw [hexp] at hquot1
    omega

/-- Settles O11: the decoded magnitudes are the cells' midpoints without the bias. -/
theorem encodeIsMagnitudeMonotonic : Obligations.EncodeIsMagnitudeMonotonic := by
  intro x1 x2 _ hlt
  have hmono := sampleMidpoint_mono hlt.le
  have h1 := decodeSample_encodeSample_natAbs x1
  have h2 := decodeSample_encodeSample_natAbs x2
  omega

/-- A decoded byte lies at the midpoint of its own cell, so its fields come back. -/
theorem fields_decodeSample (b : CompandedByte) :
    sampleExponent (decodeSample .hw b) = (255 - b.toNat) / 16 % 8 ∧
      sampleMantissa (decodeSample .hw b) = (255 - b.toNat) % 16 := by
  have hmag : ((biasedMagnitude .hw (decodeSample .hw b) : Nat) : Int) = byteMidpoint b := by
    have habs : _ = byteMidpoint b - 132 := decodeSample_hw_natAbs b
    have hhigh := byteMidpoint_le b
    rw [biasedMagnitude_hw]
    omega
  rw [byteMidpoint, cellMidpoint_eq_mul_pow] at hmag
  norm_cast at hmag
  have hexp : (255 - b.toNat) / 16 % 8 < 8 := Nat.mod_lt _ (by decide)
  have hmant : (255 - b.toNat) % 16 < 16 := Nat.mod_lt _ (by decide)
  rw [sampleMantissa, sampleExponent]
  generalize (255 - b.toNat) / 16 % 8 = e at *
  generalize (255 - b.toNat) % 16 = m at *
  have hpos : 0 < 2 ^ (e + 2) := by positivity
  have hstep : 2 ^ (e + 3) = 2 * 2 ^ (e + 2) := by ring
  obtain ⟨hexp', hmant'⟩ := fields_of_mem_cell (g := biasedMagnitude .hw (decodeSample .hw b)) hexp hmant
    (by rw [hmag, hstep]; linarith) (by rw [hmag, hstep]; linarith)
  exact ⟨hexp', by rw [hexp', hmant']⟩

/-- The sign comes back but for 0x7F, whose 0 is not negative. -/
theorem encodeSample_decodeSample (b : CompandedByte) :
    encodeSample .hw (decodeSample .hw b) = if b = 0x7F then 0xFF else b := by
  split
  case isTrue h => subst h; decide +kernel
  case isFalse h =>
    have hne : b.toNat ≠ 127 := fun hb => h (BitVec.eq_of_toNat_eq hb)
    have hlt := b.isLt
    obtain ⟨hexp, hmant⟩ := fields_decodeSample b
    have hsign : signField (decodeSample .hw b) = (255 - b.toNat) / 128 * 128 := by
      obtain hb | hb : b.toNat < 127 ∨ 128 ≤ b.toNat := by omega
      · rw [signField, if_pos (decodeSample_hw_neg hb)]; omega
      · rw [signField, if_neg (decodeSample_hw_nonneg hb).not_gt]; omega
    apply BitVec.eq_of_toNat_eq
    rw [encodeSample_hw_toNat, hexp, hmant, hsign]
    omega

/-- Settles O13: every byte but 0x7F is the byte of its own decoding, and 0x7F is the byte of -1. -/
theorem encodeAfterDecode : Obligations.EncodeAfterDecode := by
  refine ⟨encodeSample_decodeSample, fun b => ?_⟩
  by_cases hb : b = 0x7F
  · exact ⟨-1, hb ▸ (by decide +kernel)⟩
  · exact ⟨decodeSample .hw b, (encodeSample_decodeSample b).trans (if_neg hb)⟩

end Sys2Proof.Machine
end

section
/-! The byte-buffer view of samples (spec/20_memory.md R34, R36; log entry 16). -/

namespace Sys2Proof.Machine

/-- Under either byte order the two bytes of a sample make the sample. -/
@[simp] theorem sampleOfBytes_sampleBytes (c : Config) (p : LinearSample) :
    sampleOfBytes c (sampleBytes c p).1 (sampleBytes c p).2 = p := by
  have hjoin : p.extractLsb' 8 8 ++ p.extractLsb' 0 8 = p :=
    (BitVec.extractLsb'_append_extractLsb'_eq_extractLsb' (rfl : 8 = 0 + 8)).trans BitVec.extractLsb'_eq_self
  unfold sampleOfBytes sampleBytes
  cases c.byteOrder <;> exact hjoin

theorem sampleOfBytes_hw (lo hi : BitVec 8) : sampleOfBytes .hw lo hi = hi ++ lo := rfl

theorem sampleBytes_hw_fst (p : LinearSample) : (sampleBytes .hw p).1 = BitVec.ofNat 8 (p.toNat % 256) := by
  apply BitVec.eq_of_toNat_eq
  simp [sampleBytes, Config.hw, byteOrderValue]

theorem sampleBytes_hw_snd (p : LinearSample) : (sampleBytes .hw p).2 = BitVec.ofNat 8 (p.toNat / 256) := by
  apply BitVec.eq_of_toNat_eq
  simp [sampleBytes, Config.hw, byteOrderValue, Nat.shiftRight_eq_div_pow]

theorem memRead_of_getElem? {c : Config} {buf : List (BitVec 8)} {k : Nat} {b0 b1 : BitVec 8}
    (h0 : buf[2 * k]? = some b0) (h1 : buf[2 * k + 1]? = some b1) : memRead c buf k = some (sampleOfBytes c b0 b1) := by
  simp only [memRead, h0, h1]

/-- A read sees its two bytes and no others. -/
theorem memRead_congr {c : Config} {a b : List (BitVec 8)} {j k : Nat} (h0 : a[2 * j]? = b[2 * k]?)
    (h1 : a[2 * j + 1]? = b[2 * k + 1]?) : memRead c a j = memRead c b k := by
  simp only [memRead, h0, h1]

section Write

variable {c : Config} {buf : List (BitVec 8)} {k : Nat} {p : LinearSample} (hk : 2 * k + 1 < buf.length)
include hk

theorem memWrite_eq : memWrite c buf k p =
    (buf.set (2 * k) (sampleBytes c p).1).set (2 * k + 1) (sampleBytes c p).2 := if_pos hk

theorem getElem?_memWrite_even : (memWrite c buf k p)[2 * k]? = some (sampleBytes c p).1 := by
  rw [memWrite_eq hk, List.getElem?_set_ne (by omega), List.getElem?_set_self (by omega)]

theorem getElem?_memWrite_odd : (memWrite c buf k p)[2 * k + 1]? = some (sampleBytes c p).2 := by
  rw [memWrite_eq hk, List.getElem?_set_self (by simpa using hk)]

theorem getElem?_memWrite_of_ne {a : Nat} (h0 : a ≠ 2 * k) (h1 : a ≠ 2 * k + 1) :
    (memWrite c buf k p)[a]? = buf[a]? := by
  rw [memWrite_eq hk, List.getElem?_set_ne h1.symm, List.getElem?_set_ne h0.symm]

theorem memRead_memWrite_self : memRead c (memWrite c buf k p) k = some p := by
  rw [memRead_of_getElem? (getElem?_memWrite_even hk) (getElem?_memWrite_odd hk), sampleOfBytes_sampleBytes]

theorem memRead_memWrite_of_ne {j : Nat} (h : j ≠ k) : memRead c (memWrite c buf k p) j = memRead c buf j :=
  memRead_congr (getElem?_memWrite_of_ne hk (by omega) (by omega)) (getElem?_memWrite_of_ne hk (by omega) (by omega))

end Write

/-- Settles O29: a write sets two neighbouring bytes, which the read joins again. -/
theorem byteBufferReadAfterWrite : Obligations.ByteBufferReadAfterWrite := by
  refine ⟨fun c buf k p hk => ⟨memRead_memWrite_self hk, fun _ => memRead_memWrite_of_ne hk,
    fun _ => getElem?_memWrite_of_ne hk⟩, fun buf k p hk => ⟨?_, ?_⟩⟩
  · rw [getElem?_memWrite_even hk, sampleBytes_hw_fst]
  · rw [getElem?_memWrite_odd hk, sampleBytes_hw_snd]

@[simp] theorem samplesOfBytes_nil (c : Config) : samplesOfBytes c [] = [] := rfl

@[simp] theorem samplesOfBytes_singleton (c : Config) (b : BitVec 8) : samplesOfBytes c [b] = [] := rfl

@[simp] theorem samplesOfBytes_cons_cons (c : Config) (b0 b1 : BitVec 8) (rest : List (BitVec 8)) :
    samplesOfBytes c (b0 :: b1 :: rest) = sampleOfBytes c b0 b1 :: samplesOfBytes c rest := rfl

@[simp] theorem bytesOfSamples_nil (c : Config) : bytesOfSamples c [] = [] := rfl

@[simp] theorem bytesOfSamples_cons (c : Config) (p : LinearSample) (rest : List LinearSample) :
    bytesOfSamples c (p :: rest) = (sampleBytes c p).1 :: (sampleBytes c p).2 :: bytesOfSamples c rest := rfl

@[simp] theorem length_samplesOfBytes (c : Config) (buf : List (BitVec 8)) :
    (samplesOfBytes c buf).length = buf.length / 2 := by
  induction buf using List.twoStepInduction with
  | nil => rfl
  | singleton b => simp
  | cons_cons b0 b1 rest ih _ =>
    simp only [samplesOfBytes_cons_cons, List.length_cons, ih]
    omega

/-- Past the whole units both sides are none (log entry 16). -/
theorem getElem?_samplesOfBytes (c : Config) (buf : List (BitVec 8)) (k : Nat) :
    (samplesOfBytes c buf)[k]? = memRead c buf k := by
  induction buf using List.twoStepInduction generalizing k with
  | nil => simp [memRead]
  | singleton b => simp [memRead]
  | cons_cons b0 b1 rest ih _ =>
    cases k with
    | zero => rfl
    | succ k =>
      rw [samplesOfBytes_cons_cons, List.getElem?_cons_succ, ih]
      exact memRead_congr (by simp [Nat.mul_succ]) (by simp [Nat.mul_succ])

@[simp] theorem samplesOfBytes_bytesOfSamples (c : Config) (ps : List LinearSample) :
    samplesOfBytes c (bytesOfSamples c ps) = ps := by
  induction ps with
  | nil => rfl
  | cons p rest ih => simp [ih]

/-- Settles O30: the samples are taken two bytes at a time, as MemRead takes them, and a written sample is two bytes. -/
theorem samplesOfAByteBuffer : Obligations.SamplesOfAByteBuffer :=
  ⟨fun c buf => ⟨length_samplesOfBytes c buf, getElem?_samplesOfBytes c buf⟩, samplesOfBytes_bytesOfSamples⟩

@[simp] theorem length_bytesOfSamples (c : Config) (ps : List LinearSample) :
    (bytesOfSamples c ps).length = 2 * ps.length := by
  induction ps with
  | nil => rfl
  | cons p rest ih => simp only [bytesOfSamples_cons, List.length_cons, ih, Nat.mul_succ]

/-- Sample `k` lies in the bytes `2k` and `2k + 1`. -/
theorem getElem?_bytesOfSamples (c : Config) {ps : List LinearSample} {k : Nat} {p : LinearSample}
    (h : ps[k]? = some p) : (bytesOfSamples c ps)[2 * k]? = some (sampleBytes c p).1 ∧
      (bytesOfSamples c ps)[2 * k + 1]? = some (sampleBytes c p).2 := by
  induction ps generalizing k with
  | nil => simp at h
  | cons q rest ih =>
    cases k with
    | zero => cases h; exact ⟨rfl, rfl⟩
    | succ k => simpa [Nat.mul_succ] using ih (by simpa using h)

end Sys2Proof.Machine
end

section
/-! The two paths on buffers (spec/42_downsample_encode.md R98, R102; spec/43_decode_upsample.md R117; spec/30_encoding.md
R60). -/

namespace Sys2Proof.Machine

/-- Settles O19: each byte is that of an even-indexed sample, and the length fixes how many there are. -/
theorem oddSamplesHaveNoInfluence : Obligations.OddSamplesHaveNoInfluence := by
  intro c a b hlength heven
  apply List.ext_getElem?
  intro j
  by_cases hj : j < a.length / 2
  · rw [getElem?_downsampleAndEncode c hj, getElem?_downsampleAndEncode c (hlength ▸ hj), heven]
  · rw [List.getElem?_eq_none (by simpa using hj), List.getElem?_eq_none (by simpa [← hlength] using hj)]

/-- Settles O21: byte `j` is that of sample `2j`, which is read from the unit of bytes `4j` and `4j + 1`. -/
theorem outboundByteBuffer : Obligations.OutboundByteBuffer := by
  refine fun buf => ⟨by simp [outboundBytes, Nat.div_div_eq_div_mul], fun j lo hi hj hlo hhi => ?_⟩
  have hread : memRead .hw buf (2 * j) = some (sampleOfBytes .hw lo hi) :=
    memRead_of_getElem? (by rw [← hlo]; congr 1; omega) (by rw [← hhi]; congr 1; omega)
  rw [outboundBytes, getElem?_downsampleAndEncode .hw (by rw [length_samplesOfBytes]; omega), getElem?_samplesOfBytes,
    hread, sampleOfBytes_hw, Option.map_some]

/-- Settles O28: byte `k` gives the samples `2k` and `2k + 1`, and those give two bytes each. -/
theorem inboundByteBuffer : Obligations.InboundByteBuffer := by
  refine fun buf => ⟨by simp only [inboundBytes, length_bytesOfSamples, length_decodeAndUpsample]; omega, ?_⟩
  intro k b hb
  have hfirst : (decodeAndUpsample .hw buf)[2 * k]? = some (decodeSample .hw b) := by
    rw [getElem?_decodeAndUpsample_even, hb, Option.map_some]
  have hsecond : (decodeAndUpsample .hw buf)[2 * k + 1]? = some (decodeSample .hw b) := by
    rw [getElem?_decodeAndUpsample_odd, hfirst]
  obtain ⟨h0, h1⟩ := getElem?_bytesOfSamples .hw hfirst
  obtain ⟨h2, h3⟩ := getElem?_bytesOfSamples .hw hsecond
  rw [show 2 * (2 * k) = 4 * k by omega] at h0 h1
  rw [show 2 * (2 * k + 1) = 4 * k + 2 by omega] at h2 h3
  rw [sampleBytes_hw_fst] at h0 h2
  rw [sampleBytes_hw_snd] at h1 h3
  exact ⟨h0, h1, h2, h3⟩

/-- The even-indexed copies are encoded, the odd-indexed ones are not looked at. -/
theorem downsampleAndEncode_decodeAndUpsample (c : Config) (bytes : List CompandedByte) :
    downsampleAndEncode c (decodeAndUpsample c bytes) = bytes.map fun b => encodeSample c (decodeSample c b) := by
  induction bytes with
  | nil => rfl
  | cons b rest ih => simp [ih]

/-- Settles O33: each byte is decoded and encoded again on its own, and the byte-buffer view between is undone. -/
theorem inboundThenOutboundIsIdentity : Obligations.InboundThenOutboundIsIdentity := by
  intro bytes
  have hsamples : downsampleAndEncode .hw (decodeAndUpsample .hw bytes) =
      bytes.map fun b => if b = 0x7F then 0xFF else b := by
    simp only [downsampleAndEncode_decodeAndUpsample, encodeSample_decodeSample]
  refine ⟨hsamples, ?_⟩
  rw [outboundBytes, inboundBytes, samplesOfBytes_bytesOfSamples, hsamples]

end Sys2Proof.Machine
end

section
/-! Marked streams and the buffers between their markers (spec/60_exceptions.md R135, R136; log entry 17). -/

namespace Sys2Proof.Machine

variable {α : Type}

@[simp] theorem markBuffer_nil : markBuffer ([] : List α) = [] := rfl

@[simp] theorem markBuffer_cons (a : α) (rest : List α) :
    markBuffer (a :: rest) = ⟨true, a⟩ :: rest.map (Marked.mk false) := rfl

@[simp] theorem length_markBuffer (buf : List α) : (markBuffer buf).length = buf.length := by
  cases buf <;> simp

theorem markersWf_markBuffer (buf : List α) : markersWf (markBuffer buf) = true := by
  cases buf with
  | nil => rfl
  | cons a rest => simp [markersWf]

/-- Unmarked items belong to what stands before the first marker. -/
theorem cutAtMarkers_map_unmarked_append (l : List α) (stream : List (Marked α)) :
    cutAtMarkers (l.map (Marked.mk false) ++ stream) = (l ++ (cutAtMarkers stream).1, (cutAtMarkers stream).2) := by
  induction l with
  | nil => rfl
  | cons a l ih => simp [cutAtMarkers, ih]

/-- A buffer that holds anything begins a new run, which ends at the next marker. -/
theorem cutAtMarkers_markBuffer_append {buf : List α} (h : buf ≠ []) (stream : List (Marked α)) :
    cutAtMarkers (markBuffer buf ++ stream) = ([], (buf ++ (cutAtMarkers stream).1) :: (cutAtMarkers stream).2) := by
  obtain ⟨a, rest, rfl⟩ := List.exists_cons_of_ne_nil h
  simp [cutAtMarkers, cutAtMarkers_map_unmarked_append]

theorem cutAtMarkers_flatMap_markBuffer {bufs : List (List α)} (h : ∀ b ∈ bufs, b ≠ []) :
    cutAtMarkers (bufs.flatMap markBuffer) = ([], bufs) := by
  induction bufs with
  | nil => rfl
  | cons buf bufs ih =>
    obtain ⟨hbuf, hbufs⟩ := List.forall_mem_cons.mp h
    rw [List.flatMap_cons, cutAtMarkers_markBuffer_append hbuf, ih hbufs, List.append_nil]

/-- Each buffer is its own run when every one of them holds an item to mark. -/
theorem buffersOf_flatMap_markBuffer {β : Type} (f : β → List α) {bufs : List β} (h : ∀ b ∈ bufs, f b ≠ []) :
    buffersOf (bufs.flatMap fun b => markBuffer (f b)) = bufs.map f := by
  have hmap : ∀ l ∈ bufs.map f, l ≠ [] := by simpa using h
  rw [buffersOf, ← List.flatMap_map, cutAtMarkers_flatMap_markBuffer hmap]

/-- Settles O32: an input buffer of a pair or more has an output byte, one of a byte or more an output sample. -/
theorem markersSeparateOutputBuffers : Obligations.MarkersSeparateOutputBuffers := by
  refine ⟨markersWf_markBuffer, markersWf_markBuffer, fun bufs h => buffersOf_flatMap_markBuffer _ fun b hb => ?dn,
    fun bufs h => buffersOf_flatMap_markBuffer _ fun b hb => ?up⟩
  case dn =>
    have hlength := h b hb
    rw [ne_eq, ← List.length_eq_zero_iff, length_downsampleAndEncode]
    omega
  case up => simpa [← List.length_eq_zero_iff] using h b hb

end Sys2Proof.Machine
end

section
/-! The invariant of the unit state under each operation and each step (spec/10_state.md R19 to R22,
spec/41_mulaw_decode.md R88(c)). -/

namespace Sys2Proof.Machine

variable {s : State}

/-- The invariant speaks of no port and of no script. -/
theorem unitInv_congr {t : State} (h : UnitInv s) (hphase : t.dnPhase = s.dnPhase) (hofirst : t.dnOfirst = s.dnOfirst)
    (hpending : t.upPending = s.upPending) (hhold : t.upHold = s.upHold) (hout : t.upOut = s.upOut) : UnitInv t where
  ofirst_waits := by rw [hphase, hofirst]; exact h.ofirst_waits
  owed_is_last := by rw [hpending, hhold, hout]; exact h.owed_is_last
  emitted_range := by rw [hout]; exact h.emitted_range

/-- A retained byte waits; a completed pair takes its marker along. -/
theorem unitInv_dnAccept (h : UnitInv s) (first : Bool) (x : LinearSample) : UnitInv (dnAccept first x s) where
  ofirst_waits := by
    obtain ⟨-, hretain⟩ | ⟨-, -, -, hcomplete⟩ := dnAccept_cases first x s
    · simp [hretain]
    · simp [hcomplete]
  owed_is_last := by simpa using h.owed_is_last
  emitted_range := by simpa using h.emitted_range

/-- The first copy is an entry of the table. -/
theorem unitInv_upAccept (h : UnitInv s) (first : Bool) (b : CompandedByte) : UnitInv (upAccept first b s) where
  ofirst_waits := h.ofirst_waits
  owed_is_last := fun _ => ⟨⟨first, decodeSample .hw b⟩, by simp⟩
  emitted_range := by
    intro m hm
    obtain hm | rfl : m ∈ s.upOut ∨ m = ⟨first, decodeSample .hw b⟩ := by simpa using hm
    · exact h.emitted_range m hm
    · exact decodeSample_hw_range b

/-- The second copy is in range because the first one, emitted last, was. -/
theorem unitInv_upRepeat (h : UnitInv s) (hpending : s.upPending = true) : UnitInv (upRepeat s) where
  ofirst_waits := h.ofirst_waits
  owed_is_last := nofun
  emitted_range := by
    obtain ⟨last, hlast, hdata⟩ := h.owed_is_last hpending
    intro m hm
    obtain hm | rfl : m ∈ s.upOut ∨ m = ⟨false, s.upHold⟩ := by simpa using hm
    · exact h.emitted_range m hm
    · exact hdata ▸ h.emitted_range last (List.mem_of_getLast? hlast)

theorem unitInv_upOwnStep (h : UnitInv s) : UnitInv (upOwnStep s) := by
  obtain ⟨hpending, howed⟩ | ⟨-, hidle⟩ := upOwnStep_cases s
  · rw [howed]; exact unitInv_upRepeat h hpending
  · rw [hidle]; exact h

theorem unitInv_rstEvent (h : UnitInv s) : UnitInv (rstEvent s) where
  ofirst_waits := nofun
  owed_is_last := nofun
  emitted_range := h.emitted_range

theorem unitInv_exec {i : Instr} {t : State} (h : UnitInv s) (hexec : exec i s = .next t) : UnitInv t := by
  obtain ⟨x, -, rfl⟩ | ⟨b, -, rfl⟩ | ⟨first, x, -, rfl⟩ | ⟨first, b, -, -, rfl⟩ | ⟨first, b, -, hpending, rfl⟩ :=
    exec_cases hexec
  · exact unitInv_congr h rfl rfl rfl rfl rfl
  · exact unitInv_congr h rfl rfl rfl rfl rfl
  · exact unitInv_dnAccept h first x
  · exact unitInv_upAccept h first b
  · exact unitInv_congr (unitInv_upRepeat h hpending) rfl rfl rfl rfl rfl

/-- Settles O41: the event leaves the script, which the invariant does not see, and each operation keeps the invariant. -/
theorem stepKeepsTheInvariant : Obligations.StepKeepsTheInvariant := by
  intro s t h hstep
  have htaken : ∀ rest, UnitInv { s with host := rest } := fun _ => unitInv_congr h rfl rfl rfl rfl rfl
  obtain ⟨-, rfl⟩ | ⟨rest, -, rfl⟩ | ⟨c, rest, -, rfl⟩ | ⟨p, rest, -, hexec⟩ := step_cases hstep
  · exact unitInv_upOwnStep h
  · exact unitInv_upOwnStep (htaken rest)
  · apply unitInv_rstEvent
    exact unitInv_congr (htaken rest) (by simp) (by simp) (by simp) (by simp) (by simp)
  · exact unitInv_exec (htaken rest) hexec

end Sys2Proof.Machine
end

section
/-! What the output ports carry and what the streams record (spec/10_state.md R23; log entries 4 and 5). -/

namespace Sys2Proof.Machine

/-- DNENC emits for an odd-indexed sample only (R99). -/
theorem dnAccept_dnOut (first : Bool) (x : LinearSample) (s : State) : (dnAccept first x s).dnOut =
    s.dnOut ++ (if evenIndexed first s then none else some (Marked.mk s.dnOfirst s.dnHold)).toList := by
  obtain ⟨heven, hretain⟩ | ⟨hodd, -, -, hcomplete⟩ := dnAccept_cases first x s
  · simp [heven, hretain]
  · simp [hodd, hcomplete]

/-- DECUP's own step emits what is owed. -/
theorem upOwnStep_upOut (s : State) : (upOwnStep s).upOut = s.upOut ++ s.owedCopy.toList := by
  obtain ⟨hpending, howed⟩ | ⟨hpending, hidle⟩ := upOwnStep_cases s
  · simp [State.owedCopy, hpending, howed]
  · simp [State.owedCopy, hpending, hidle]

theorem owedCopy_of_upPending {s : State} (h : s.upPending = true) : s.owedCopy = some ⟨false, s.upHold⟩ := if_pos h

theorem owedCopy_of_not_upPending {s : State} (h : s.upPending = false) : s.owedCopy = none := by
  simp [State.owedCopy, h]

/-- Settles O42: by the head of the script and the instruction that a presented item decodes to. -/
theorem streamsRecordThePorts : Obligations.StreamsRecordThePorts := by
  intro s t hstep
  unfold State.dnOutPort State.upOutPort State.coming
  obtain ⟨hhost, rfl⟩ | ⟨rest, hhost, rfl⟩ | ⟨c, rest, hhost, rfl⟩ | ⟨p, rest, hhost, hexec⟩ := step_cases hstep
  · simp [hhost, upOwnStep_upOut]
  · simp [hhost, upOwnStep_upOut, State.owedCopy]
  · simp [hhost]
  · obtain ⟨x, hi, rfl⟩ | ⟨b, hi, rfl⟩ | ⟨first, x, hi, rfl⟩ | ⟨first, b, hi, hready, rfl⟩ |
      ⟨first, b, hi, hpending, rfl⟩ := exec_cases hexec
    · simp [hhost, hi]
    · simp [hhost, hi]
    · simp [hhost, hi, dnAccept_dnOut, evenIndexed]
    · simp [hhost, hi, State.upInReady, show s.upPending = false from hready]
    · simp [hhost, hi, State.upInReady, State.owedCopy, show s.upPending = true from hpending]

end Sys2Proof.Machine
end

section
/-! Steps of different units commute (spec/20_memory.md R40). -/

namespace Sys2Proof.Machine

/-- An operation that neither reads nor writes DNENC's fields and stream commutes with `dn.accept`. -/
theorem dnAccept_comm {op : State → State} {f : Bool} {x : LinearSample} {s : State}
    (hphase : (op s).dnPhase = s.dnPhase) (hretain : dnRetain f x (op s) = op (dnRetain f x s))
    (hcomplete : dnComplete (op s) = op (dnComplete s)) : dnAccept f x (op s) = op (dnAccept f x s) := by
  have heven' := evenIndexed_congr hphase f
  cases heven : evenIndexed f s with
  | true => rw [dnAccept_of_evenIndexed heven, dnAccept_of_evenIndexed (heven'.trans heven), hretain]
  | false => rw [dnAccept_of_not_evenIndexed heven, dnAccept_of_not_evenIndexed (heven'.trans heven), hcomplete]

theorem dnAccept_upAccept_comm (f g : Bool) (x : LinearSample) (b : CompandedByte) (s : State) :
    dnAccept f x (upAccept g b s) = upAccept g b (dnAccept f x s) := dnAccept_comm (op := upAccept g b) rfl rfl rfl

theorem dnAccept_upRepeat_comm (f : Bool) (x : LinearSample) (s : State) :
    dnAccept f x (upRepeat s) = upRepeat (dnAccept f x s) := dnAccept_comm (op := upRepeat) rfl rfl rfl

theorem dnAccept_present_comm (f : Bool) (x : LinearSample) (p : PortItem) (s : State) :
    dnAccept f x (present p s) = present p (dnAccept f x s) := dnAccept_comm (op := present p) rfl rfl rfl

theorem upOwnStep_dnAccept_comm (f : Bool) (x : LinearSample) (s : State) :
    upOwnStep (dnAccept f x s) = dnAccept f x (upOwnStep s) := by
  cases hpending : s.upPending with
  | true =>
    rw [upOwnStep_of_upPending hpending, upOwnStep_of_upPending (by simpa using hpending), dnAccept_upRepeat_comm]
  | false => rw [upOwnStep_of_not_upPending hpending, upOwnStep_of_not_upPending (by simpa using hpending)]

/-- Settles O43: `dn.accept` commutes with acceptance, with the repeat and with presenting an item again. -/
theorem streamUnitsCommute : Obligations.StreamUnitsCommute := by
  refine ⟨fun f g x b s => ?_, upOwnStep_dnAccept_comm⟩
  cases hpending : s.upPending with
  | false =>
    refine ⟨_, _, _, exec_dnenc f x s, exec_decup_of_not_upPending (by simpa using hpending) g b,
      exec_decup_of_not_upPending hpending g b, ?_⟩
    rw [exec_dnenc, dnAccept_upAccept_comm]
  | true =>
    refine ⟨_, _, _, exec_dnenc f x s, exec_decup_of_upPending (by simpa using hpending) g b,
      exec_decup_of_upPending hpending g b, ?_⟩
    rw [exec_dnenc, dnAccept_present_comm, dnAccept_upRepeat_comm]

end Sys2Proof.Machine
end

section
/-! States that no port can tell apart stay so (spec/10_state.md R20, R22; 93_implementation_defined.md U11). -/

namespace Sys2Proof.Machine

section

variable {s s' : State} (h : Indistinguishable s s')
include h

theorem indistinguishable_withHost (rest : List HostEvent) :
    Indistinguishable { s with host := rest } { s' with host := rest } :=
  { h with host := rfl }

theorem indistinguishable_present (p : PortItem) : Indistinguishable (present p s) (present p s') :=
  { h with host := by simp [h.host] }

theorem indistinguishable_driveEncIn (x : LinearSample) : Indistinguishable (driveEncIn x s) (driveEncIn x s') :=
  { h with encIn := rfl }

theorem indistinguishable_driveDecIn (b : CompandedByte) : Indistinguishable (driveDecIn b s) (driveDecIn b s') :=
  { h with decIn := rfl }

theorem indistinguishable_driveThroughRst (c : Option PortItem) :
    Indistinguishable (driveThroughRst c s) (driveThroughRst c s') := by
  cases c with
  | none => exact h
  | some p =>
    cases p with
    | encIn w => exact indistinguishable_driveEncIn h w
    | decIn w => exact indistinguishable_driveDecIn h w
    | dnIn w => exact h
    | upIn w => exact h

/-- The waiting byte is read where `dn_phase = 1` only. -/
theorem indistinguishable_dnAccept (first : Bool) (x : LinearSample) :
    Indistinguishable (dnAccept first x s) (dnAccept first x s') := by
  have heven' := evenIndexed_congr h.dnPhase first
  obtain ⟨heven, hretain⟩ | ⟨hodd, -, hphase, hcomplete⟩ := dnAccept_cases first x s
  · rw [hretain, dnAccept_of_evenIndexed (heven'.trans heven)]
    exact { h with dnPhase := rfl, dnHold := fun _ => rfl, dnOfirst := by simp [h.dnOfirst] }
  · rw [hcomplete, dnAccept_of_not_evenIndexed (heven'.trans hodd)]
    exact { h with
      dnPhase := rfl, dnHold := nofun, dnOfirst := rfl, dnOut := by simp [h.dnOut, h.dnOfirst, h.dnHold hphase] }

theorem indistinguishable_upAccept (first : Bool) (b : CompandedByte) :
    Indistinguishable (upAccept first b s) (upAccept first b s') :=
  { h with upPending := rfl, upHold := fun _ => rfl, upOut := by simp [h.upOut] }

/-- The owed sample is read where `up_pending = 1` only. -/
theorem indistinguishable_upRepeat (hpending : s.upPending = true) : Indistinguishable (upRepeat s) (upRepeat s') :=
  { h with upPending := rfl, upHold := nofun, upOut := by simp [h.upOut, h.upHold hpending] }

theorem indistinguishable_upOwnStep : Indistinguishable (upOwnStep s) (upOwnStep s') := by
  cases hpending : s.upPending with
  | true =>
    rw [upOwnStep_of_upPending hpending, upOwnStep_of_upPending (h.upPending.trans hpending)]
    exact indistinguishable_upRepeat h hpending
  | false =>
    rw [upOwnStep_of_not_upPending hpending, upOwnStep_of_not_upPending (h.upPending.trans hpending)]
    exact h

/-- The free values differ, and nothing reads them. -/
theorem indistinguishable_rstEvent : Indistinguishable (rstEvent s) (rstEvent s') :=
  { h with dnPhase := rfl, dnHold := nofun, dnOfirst := rfl, upPending := rfl, upHold := nofun }

theorem exists_exec_indistinguishable {i : Instr} {t : State} (hexec : exec i s = .next t) :
    ∃ t', exec i s' = .next t' ∧ Indistinguishable t t' := by
  obtain ⟨x, rfl, rfl⟩ | ⟨b, rfl, rfl⟩ | ⟨first, x, rfl, rfl⟩ | ⟨first, b, rfl, hready, rfl⟩ |
    ⟨first, b, rfl, hpending, rfl⟩ := exec_cases hexec
  · exact ⟨_, exec_enc x s', indistinguishable_driveEncIn h x⟩
  · exact ⟨_, exec_dec b s', indistinguishable_driveDecIn h b⟩
  · exact ⟨_, exec_dnenc first x s', indistinguishable_dnAccept h first x⟩
  · exact ⟨_, exec_decup_of_not_upPending (h.upPending.trans hready) first b, indistinguishable_upAccept h first b⟩
  · exact ⟨_, exec_decup_of_upPending (h.upPending.trans hpending) first b,
      indistinguishable_present (indistinguishable_upRepeat h hpending) _⟩

theorem exists_step_indistinguishable {t : State} (hstep : step s = .next t) :
    ∃ t', step s' = .next t' ∧ Indistinguishable t t' := by
  obtain ⟨hhost, rfl⟩ | ⟨rest, hhost, rfl⟩ | ⟨c, rest, hhost, rfl⟩ | ⟨p, rest, hhost, hexec⟩ := step_cases hstep
  · exact ⟨_, step_of_host_nil (h.host.trans hhost), indistinguishable_upOwnStep h⟩
  · exact ⟨_, step_of_host_gap (h.host.trans hhost), indistinguishable_upOwnStep (indistinguishable_withHost h rest)⟩
  · exact ⟨_, step_of_host_rst (h.host.trans hhost),
      indistinguishable_rstEvent (indistinguishable_driveThroughRst (indistinguishable_withHost h rest) c)⟩
  · rw [step_of_host_item (h.host.trans hhost)]
    exact exists_exec_indistinguishable (indistinguishable_withHost h rest) hexec

theorem coming_eq_of_indistinguishable : s'.coming = s.coming := by simp only [State.coming, h.host]

theorem owedCopy_eq_of_indistinguishable : s'.owedCopy = s.owedCopy := by
  cases hpending : s.upPending with
  | true =>
    rw [owedCopy_of_upPending hpending, owedCopy_of_upPending (h.upPending.trans hpending), h.upHold hpending]
  | false => rw [owedCopy_of_not_upPending hpending, owedCopy_of_not_upPending (h.upPending.trans hpending)]

theorem upOutPort_eq_of_indistinguishable : s'.upOutPort = s.upOutPort := by
  unfold State.upOutPort State.upInReady
  rw [coming_eq_of_indistinguishable h, owedCopy_eq_of_indistinguishable h, h.upPending]

theorem dnOutPort_eq_of_indistinguishable : s'.dnOutPort = s.dnOutPort := by
  cases hphase : s.dnPhase with
  | true =>
    simp only [State.dnOutPort, coming_eq_of_indistinguishable h, evenIndexed_congr h.dnPhase, h.dnOfirst, h.dnHold hphase]
  | false => simp [State.dnOutPort, coming_eq_of_indistinguishable h, evenIndexed, h.dnPhase, hphase]

end

/-- Settles O47: every operation reads a hold register where it means something only, and so do the ports. -/
theorem meaninglessHoldsNeverMatter : Obligations.MeaninglessHoldsNeverMatter :=
  fun _ _ _ h hstep => ⟨exists_step_indistinguishable h hstep, dnOutPort_eq_of_indistinguishable h,
    upOutPort_eq_of_indistinguishable h, congrArg (encodeSample .hw) h.encIn, congrArg (decodeSample .hw) h.decIn⟩

end Sys2Proof.Machine
end

section
/-! Every run finishes (spec/70_reset_and_hazards.md R150, spec/60_exceptions.md R136; log entries 4 and 5). -/

namespace Sys2Proof.Machine

/-- A bound on the steps that a run still takes: two for each event, one for a copy that is owed. -/
def State.remaining (s : State) : Nat := 2 * s.host.length + s.upPending.toNat

theorem remaining_le (s : State) : s.remaining ≤ 2 * s.host.length + 1 :=
  Nat.add_le_add_left s.upPending.toNat_le _

theorem finished_eq_true_iff (s : State) : s.finished = true ↔ s.host = [] ∧ s.upPending = false := by
  simp [State.finished]

/-- An instruction either leaves the rest of the script, or presents its item again where it clears what is owed. -/
theorem remaining_lt_of_exec {i : Instr} {s t : State} (h : exec i s = .next t) : t.remaining < s.remaining + 2 := by
  obtain ⟨x, -, rfl⟩ | ⟨b, -, rfl⟩ | ⟨first, x, -, rfl⟩ | ⟨first, b, -, -, rfl⟩ | ⟨first, b, -, hpending, rfl⟩ :=
    exec_cases h
  · simp [State.remaining]
  · simp [State.remaining]
  · simp [State.remaining]
  · simp only [State.remaining, upAccept_host, upAccept_upPending, Bool.toNat_true]
    omega
  · simp only [State.remaining, present_host, present_upPending, upRepeat_host, upRepeat_upPending, hpending,
      List.length_cons, Bool.toNat_false, Bool.toNat_true]
    omega

theorem remaining_lt_of_step {s t : State} (h : step s = .next t) (hrunning : s.finished = false) :
    t.remaining < s.remaining := by
  obtain ⟨hhost, rfl⟩ | ⟨rest, hhost, rfl⟩ | ⟨c, rest, hhost, rfl⟩ | ⟨p, rest, hhost, hexec⟩ := step_cases h
  · have hpending : s.upPending = true := by simpa [State.finished, hhost] using hrunning
    simp [State.remaining, hhost, hpending]
  · simp only [State.remaining, hhost, upOwnStep_host, upOwnStep_upPending, List.length_cons, Bool.toNat_false]
    omega
  · simp only [State.remaining, hhost, rstEvent_host, driveThroughRst_host, rstEvent_upPending, List.length_cons,
      Bool.toNat_false]
    omega
  · have hlt := remaining_lt_of_exec hexec
    simp only [State.remaining, hhost, List.length_cons] at hlt ⊢
    omega

theorem exists_run_finished (s : State) : ∃ k t, k ≤ s.remaining ∧ run k s = .next t ∧ t.finished = true := by
  induction hn : s.remaining using Nat.strong_induction_on generalizing s with
  | _ n ih =>
    cases hfinished : s.finished with
    | true => exact ⟨0, s, Nat.zero_le _, rfl, hfinished⟩
    | false =>
      obtain ⟨t, hstep⟩ := exists_step_eq_next s
      have hlt := remaining_lt_of_step hstep hfinished
      obtain ⟨k, u, hk, hrun, hu⟩ := ih _ (hn ▸ hlt) t rfl
      exact ⟨k + 1, u, by omega, (run_succ_of_step hstep).trans hrun, hu⟩

/-- Settles O46: each step of a run that goes on lowers the bound, and the bound counts two for an event. -/
theorem everyRunFinishes : Obligations.EveryRunFinishes := by
  intro s
  obtain ⟨k, t, hk, hrun, hfinished⟩ := exists_run_finished s
  exact ⟨k, t, hk.trans (remaining_le s), hrun, hfinished⟩

end Sys2Proof.Machine
end

section
/-! Quantities that every step of a run keeps. -/

namespace Sys2Proof.Machine

/-- A run of one step and more begins with a step. -/
theorem exists_step_of_run_succ {k : Nat} {s u : State} (h : run (k + 1) s = .next u) :
    ∃ t, step s = .next t ∧ run k t = .next u := by
  obtain ⟨t, hstep⟩ := exists_step_eq_next s
  exact ⟨t, hstep, (run_succ_of_step hstep).symm.trans h⟩

/-- What a step keeps, a run keeps. -/
theorem run_induction {P : State → Prop} (hstep : ∀ s t, P s → step s = .next t → P t) {k : Nat} {s t : State}
    (hs : P s) (h : run k s = .next t) : P t := by
  induction k generalizing s with
  | zero => cases h; exact hs
  | succ k ih =>
    obtain ⟨u, hu, hrun⟩ := exists_step_of_run_succ h
    exact ih (hstep s u hs hu) hrun

end Sys2Proof.Machine
end

section
/-! What DNENC makes of a script (spec/20_memory.md R40, spec/60_exceptions.md R133). -/

namespace Sys2Proof.Machine

/-- DNENC's fields and output stream, and the index that a reset event takes the next value of `dn_hold` from. -/
def dnView (s : State) : List (Marked CompandedByte) × Bool × CompandedByte × Bool × Nat :=
  (s.dnOut, s.dnPhase, s.dnHold, s.dnOfirst, s.freeIdx)

theorem dnView_eq_iff (s t : State) : dnView s = dnView t ↔ s.dnOut = t.dnOut ∧ s.dnPhase = t.dnPhase ∧
    s.dnHold = t.dnHold ∧ s.dnOfirst = t.dnOfirst ∧ s.freeIdx = t.freeIdx := by
  simp [dnView]

theorem dnView_upOwnStep (s : State) : dnView (upOwnStep s) = dnView s := by simp [dnView]

theorem dnView_driveThroughRst (c : Option PortItem) (s : State) : dnView (driveThroughRst c s) = dnView s := by
  simp [dnView]

theorem dnView_rstEvent_congr {s t : State} (h : dnView s = dnView t) : dnView (rstEvent s) = dnView (rstEvent t) := by
  obtain ⟨hout, -, -, -, hidx⟩ := (dnView_eq_iff s t).mp h
  simp [dnView, hout, hidx]

theorem dnView_dnAccept_congr {s t : State} (h : dnView s = dnView t) (first : Bool) (x : LinearSample) :
    dnView (dnAccept first x s) = dnView (dnAccept first x t) := by
  obtain ⟨hout, hphase, hhold, hofirst, hidx⟩ := (dnView_eq_iff s t).mp h
  have heven := evenIndexed_congr hphase.symm first
  obtain ⟨heven', hretain⟩ | ⟨hodd, -, -, hcomplete⟩ := dnAccept_cases first x s
  · rw [hretain, dnAccept_of_evenIndexed (heven.trans heven')]
    simp [dnView, hout, hofirst, hidx]
  · rw [hcomplete, dnAccept_of_not_evenIndexed (heven.trans hodd)]
    simp [dnView, hout, hhold, hofirst, hidx]

theorem dnEvent_item_dnenc {p : PortItem} {first : Bool} {x : LinearSample} (h : decode p = .dnenc first x) (s : State) :
    dnEvent s (.item p) = dnAccept first x s := by
  simp only [dnEvent, h]

theorem dnEvent_item_of_ne_dnenc {p : PortItem} (h : ∀ first x, decode p ≠ .dnenc first x) (s : State) :
    dnEvent s (.item p) = s := by
  cases hi : decode p with
  | enc x | dec b | decup first b => simp only [dnEvent, hi]
  | dnenc first x => exact absurd hi (h first x)

/-- What an event does to DNENC it reads off DNENC's fields. -/
theorem dnView_dnEvent_congr {s t : State} (h : dnView s = dnView t) (e : HostEvent) :
    dnView (dnEvent s e) = dnView (dnEvent t e) := by
  cases e with
  | gap => exact h
  | rst c => exact dnView_rstEvent_congr h
  | item p =>
    by_cases hi : ∃ first x, decode p = .dnenc first x
    · obtain ⟨first, x, hi⟩ := hi
      rw [dnEvent_item_dnenc hi, dnEvent_item_dnenc hi]
      exact dnView_dnAccept_congr h first x
    · have hne : ∀ first x, decode p ≠ .dnenc first x := fun first x hd => hi ⟨first, x, hd⟩
      rw [dnEvent_item_of_ne_dnenc hne, dnEvent_item_of_ne_dnenc hne, h]

theorem dnView_foldl_congr {s t : State} (h : dnView s = dnView t) (events : List HostEvent) :
    dnView (events.foldl dnEvent s) = dnView (events.foldl dnEvent t) := by
  induction events generalizing s t with
  | nil => exact h
  | cons e events ih => exact ih (dnView_dnEvent_congr h e)

/-- A step either takes the next event and does to DNENC what the event says, or leaves the script and DNENC alone. -/
theorem dnView_of_step {s t : State} (h : step s = .next t) :
    (t.host = s.host ∧ dnView t = dnView s) ∨ ∃ e, s.host = e :: t.host ∧ dnView t = dnView (dnEvent s e) := by
  obtain ⟨-, rfl⟩ | ⟨rest, hhost, rfl⟩ | ⟨c, rest, hhost, rfl⟩ | ⟨p, rest, hhost, hexec⟩ := step_cases h
  · exact .inl ⟨upOwnStep_host s, dnView_upOwnStep s⟩
  · exact .inr ⟨.gap, by simpa using hhost, dnView_upOwnStep _⟩
  · exact .inr ⟨.rst c, by simpa using hhost, dnView_rstEvent_congr (dnView_driveThroughRst c _)⟩
  · obtain ⟨x, hi, rfl⟩ | ⟨b, hi, rfl⟩ | ⟨first, x, hi, rfl⟩ | ⟨first, b, hi, -, rfl⟩ | ⟨first, b, hi, -, rfl⟩ :=
      exec_cases hexec
    · exact .inr ⟨.item p, hhost, by rw [dnEvent_item_of_ne_dnenc (by simp [hi])]; rfl⟩
    · exact .inr ⟨.item p, hhost, by rw [dnEvent_item_of_ne_dnenc (by simp [hi])]; rfl⟩
    · have htaken : dnView { s with host := rest } = dnView s := rfl
      exact .inr ⟨.item p, by simpa using hhost, by rw [dnEvent_item_dnenc hi, dnView_dnAccept_congr htaken]⟩
    · exact .inr ⟨.item p, hhost, by rw [dnEvent_item_of_ne_dnenc (by simp [hi])]; rfl⟩
    · exact .inl ⟨by rw [present_host, ← hi, encode_decode, hhost]; rfl, rfl⟩

/-- What DNENC will have made of the script in the end does not change along a run. -/
theorem dnView_foldl_of_step {s t : State} (h : step s = .next t) :
    dnView (t.host.foldl dnEvent t) = dnView (s.host.foldl dnEvent s) := by
  obtain ⟨hhost, hview⟩ | ⟨e, hhost, hview⟩ := dnView_of_step h
  · rw [hhost]
    exact dnView_foldl_congr hview _
  · rw [hhost]
    exact dnView_foldl_congr hview t.host

/-- Settles O44: with an empty script, what DNENC has made of it is what stands in its fields. -/
theorem dnencSeesOnlyItsOwnEvents : Obligations.DnencSeesOnlyItsOwnEvents := by
  intro k s t hrun hdone
  have hview := run_induction (P := fun u => dnView (u.host.foldl dnEvent u) = dnView (s.host.foldl dnEvent s))
    (fun _ _ hu hstep => (dnView_foldl_of_step hstep).trans hu) rfl hrun
  rw [hdone, List.foldl_nil] at hview
  obtain ⟨hout, hphase, hhold, hofirst, -⟩ := (dnView_eq_iff _ _).mp hview
  exact ⟨hout, hphase, hhold, hofirst⟩

end Sys2Proof.Machine
end

section
/-! What DECUP makes of a script without resets (spec/20_memory.md R40, spec/43_decode_upsample.md R115). -/

namespace Sys2Proof.Machine

/-- What has been emitted on `up_out`, the copy that is owed, and both copies of each byte still to be presented. -/
def upPromise (s : State) : List (Marked LinearSample) := s.upOut ++ s.owedCopy.toList ++ s.host.flatMap upAnswers

theorem upAnswers_item_decup {p : PortItem} {first : Bool} {b : CompandedByte} (h : decode p = .decup first b) :
    upAnswers (.item p) = [⟨first, decodeSample .hw b⟩, ⟨false, decodeSample .hw b⟩] := by
  simp only [upAnswers, h]

theorem upAnswers_item_of_ne_decup {p : PortItem} (h : ∀ first b, decode p ≠ .decup first b) :
    upAnswers (.item p) = [] := by
  cases hi : decode p with
  | enc x | dec b | dnenc first x => simp only [upAnswers, hi]
  | decup first b => exact absurd hi (h first b)

/-- DECUP's own step emits the owed copy, no more and no less. -/
theorem upPromise_upOwnStep (s : State) : upPromise (upOwnStep s) = upPromise s := by
  simp [upPromise, upOwnStep_upOut, State.owedCopy]

/-- An operation that leaves DECUP and the script alone keeps the promise. -/
theorem upPromise_congr {s t : State} (hout : t.upOut = s.upOut) (hpending : t.upPending = s.upPending)
    (hhold : t.upHold = s.upHold) (hhost : t.host.flatMap upAnswers = s.host.flatMap upAnswers) :
    upPromise t = upPromise s := by
  simp only [upPromise, State.owedCopy, hout, hpending, hhold, hhost]

theorem upPromise_of_step {s t : State} (hnorst : ∀ e ∈ s.host, e.isRst = false) (h : step s = .next t) :
    upPromise t = upPromise s := by
  obtain ⟨-, rfl⟩ | ⟨rest, hhost, rfl⟩ | ⟨c, rest, hhost, rfl⟩ | ⟨p, rest, hhost, hexec⟩ := step_cases h
  · exact upPromise_upOwnStep s
  · rw [upPromise_upOwnStep]
    exact upPromise_congr rfl rfl rfl (by simp [hhost, upAnswers])
  · cases hnorst (.rst c) (hhost ▸ List.mem_cons_self)
  · obtain ⟨x, hi, rfl⟩ | ⟨b, hi, rfl⟩ | ⟨first, x, hi, rfl⟩ | ⟨first, b, hi, hready, rfl⟩ |
      ⟨first, b, hi, hpending, rfl⟩ := exec_cases hexec
    · exact upPromise_congr rfl rfl rfl (by simp [hhost, upAnswers_item_of_ne_decup, hi])
    · exact upPromise_congr rfl rfl rfl (by simp [hhost, upAnswers_item_of_ne_decup, hi])
    · exact upPromise_congr (by simp) (by simp) (by simp) (by simp [hhost, upAnswers_item_of_ne_decup, hi])
    · simp [upPromise, State.owedCopy, show s.upPending = false from hready, hhost, upAnswers_item_decup hi]
    · simp [upPromise, State.owedCopy, show s.upPending = true from hpending, hhost, ← hi]

/-- A step takes an event from the script or leaves it. -/
theorem mem_host_of_step {s t : State} (h : step s = .next t) {e : HostEvent} (he : e ∈ t.host) : e ∈ s.host := by
  obtain ⟨hhost, -⟩ | ⟨e', hhost, -⟩ := dnView_of_step h
  · exact hhost ▸ he
  · exact hhost ▸ List.mem_cons_of_mem e' he

/-- Settles O45: at first nothing is owed, so the promise is the whole answer; in the end nothing is left of it but what
has been emitted. -/
theorem decupSeesOnlyItsOwnEvents : Obligations.DecupSeesOnlyItsOwnEvents := by
  intro k s t hready hnorst hrun hfinished
  obtain ⟨hpromise, -⟩ := run_induction (P := fun u => upPromise u = upPromise s ∧ ∀ e ∈ u.host, e.isRst = false)
    (fun u v hu hstep => ⟨(upPromise_of_step hu.2 hstep).trans hu.1, fun e he => hu.2 e (mem_host_of_step hstep he)⟩)
    ⟨rfl, hnorst⟩ hrun
  obtain ⟨hhost, hpending⟩ := (finished_eq_true_iff t).mp hfinished
  simpa [upPromise, owedCopy_of_not_upPending hready, owedCopy_of_not_upPending hpending, hhost] using hpromise

end Sys2Proof.Machine
end

section
/-! The items of buffers sent to DNENC (spec/42_downsample_encode.md R101; log entries 3 and 15). -/

namespace Sys2Proof.Machine

/-- A pair leaves its byte on the stream and nothing waiting, whatever waited before an even-indexed sample. -/
theorem dnAccept_dnAccept_eq {first : Bool} {s : State} (h : first = true ∨ s.dnPhase = false) (x y : LinearSample) :
    dnAccept false y (dnAccept first x s) = { s with
      dnOut := s.dnOut ++ [⟨first || s.dnOfirst, encodeSample .hw x⟩]
      dnHold := encodeSample .hw x
      dnPhase := false
      dnOfirst := false } := by
  rw [dnAccept_eq_dnRetain h, dnAccept_eq_dnComplete rfl (dnRetain_dnPhase first x s)]
  rfl

/-- The event of a stream item presented to DNENC. -/
def dnItem (m : Marked LinearSample) : HostEvent := .item (encode (.dnenc m.first m.data))

theorem dnBufferEvents_eq (buf : List LinearSample) : dnBufferEvents buf = (markBuffer buf).map dnItem := rfl

/-- `dn.accept` of a stream item, in the order of a fold. -/
def dnAcceptItem (s : State) (m : Marked LinearSample) : State := dnAccept m.first m.data s

theorem dnAccept_withHost_comm (first : Bool) (x : LinearSample) (s : State) (rest : List HostEvent) :
    dnAccept first x { s with host := rest } = { dnAccept first x s with host := rest } :=
  dnAccept_comm (op := fun u => { u with host := rest }) rfl rfl rfl

/-- Items presented to DNENC are accepted one a step, whatever follows them. -/
theorem run_dnItems {items : List (Marked LinearSample)} {rest : List HostEvent} {s : State}
    (h : s.host = items.map dnItem ++ rest) :
    run items.length s = .next (items.foldl dnAcceptItem { s with host := rest }) := by
  induction items generalizing s with
  | nil => subst h; rfl
  | cons m items ih =>
    have hstep := (step_of_host_encode h).trans (exec_dnenc m.first m.data _)
    have htaken := dnAccept_withHost_comm m.first m.data { s with host := items.map dnItem ++ rest } rest
    rw [List.length_cons, run_succ_of_step hstep, ih (dnAccept_host _ _ _)]
    exact congrArg (fun u => Host.Outcome.next (items.foldl dnAcceptItem u)) htaken.symm

/-- Unmarked items from an even index on: the bytes of the pairs, none of them marked. -/
theorem foldl_dnAcceptItem_unmarked (xs : List LinearSample) {s : State} (hphase : s.dnPhase = false)
    (hofirst : s.dnOfirst = false) :
    ∃ hold, (xs.map (Marked.mk false)).foldl dnAcceptItem s = { s with
      dnOut := s.dnOut ++ (downsampleAndEncode .hw xs).map (Marked.mk false)
      dnHold := hold
      dnPhase := decide (xs.length % 2 = 1) } := by
  induction xs using List.twoStepInduction generalizing s with
  | nil => exact ⟨s.dnHold, by simp [← hphase]⟩
  | singleton x =>
    refine ⟨encodeSample .hw x, ?_⟩
    simp [dnAcceptItem, dnAccept_eq_dnRetain (.inr hphase), dnRetain]
  | cons_cons x y xs ih _ =>
    obtain ⟨hold, hrest⟩ := ih (s := dnAccept false y (dnAccept false x s)) (by simp [dnAccept_dnAccept_eq, hphase])
      (by simp [dnAccept_dnAccept_eq, hphase])
    refine ⟨hold, ?_⟩
    simp only [List.map_cons, List.foldl_cons, dnAcceptItem] at hrest ⊢
    rw [hrest, dnAccept_dnAccept_eq (.inr hphase)]
    simp [hofirst, Nat.add_assoc]

/-- The items of a buffer emit the bytes of its pairs, the first of them marked, from any state. -/
theorem foldl_dnAcceptItem_markBuffer {buf : List LinearSample} (hbuf : buf ≠ []) (s : State) :
    ∃ hold, (markBuffer buf).foldl dnAcceptItem s = { s with
      dnOut := s.dnOut ++ markBuffer (downsampleAndEncode .hw buf)
      dnHold := hold
      dnPhase := decide (buf.length % 2 = 1)
      dnOfirst := decide (buf.length = 1) } := by
  match buf with
  | [] => exact absurd rfl hbuf
  | [x] => exact ⟨encodeSample .hw x, by simp [dnAcceptItem, dnAccept_eq_dnRetain, dnRetain]⟩
  | x :: y :: xs =>
    obtain ⟨hold, hrest⟩ := foldl_dnAcceptItem_unmarked xs (s := dnAccept false y (dnAccept true x s))
      (by simp [dnAccept_dnAccept_eq]) (by simp [dnAccept_dnAccept_eq])
    refine ⟨hold, ?_⟩
    simp only [markBuffer_cons, List.map_cons, List.foldl_cons, dnAcceptItem] at hrest ⊢
    rw [hrest, dnAccept_dnAccept_eq (.inl rfl)]
    simp [Nat.add_assoc]

/-- Settles O20: the buffer's items are accepted in as many steps, and what they emit does not depend on the state. -/
theorem dnencBufferRunRefinesR96 : Obligations.DnencBufferRunRefinesR96 := by
  intro s buf rest hbuf hhost
  obtain ⟨hold, hfold⟩ := foldl_dnAcceptItem_markBuffer hbuf { s with host := rest }
  rw [dnBufferEvents_eq] at hhost
  have hrun := run_dnItems hhost
  rw [length_markBuffer, hfold] at hrun
  exact ⟨hold, hrun⟩

/-- An empty buffer has no items and no output. -/
theorem exists_run_dnBuffer {buf : List LinearSample} {rest : List HostEvent} {s : State}
    (h : s.host = dnBufferEvents buf ++ rest) :
    ∃ t, run buf.length s = .next t ∧ t.host = rest ∧
      t.dnOut = s.dnOut ++ markBuffer (downsampleAndEncode .hw buf) := by
  by_cases hbuf : buf = []
  · subst hbuf
    exact ⟨s, rfl, h, (List.append_nil _).symm⟩
  · obtain ⟨hold, hrun⟩ := dnencBufferRunRefinesR96 s buf rest hbuf h
    exact ⟨_, hrun, rfl, rfl⟩

theorem exists_run_dnBuffers {bufs : List (List LinearSample)} {s : State} (h : s.host = bufs.flatMap dnBufferEvents) :
    ∃ t, run (bufs.map List.length).sum s = .next t ∧ t.host = [] ∧
      t.dnOut = s.dnOut ++ bufs.flatMap fun buf => markBuffer (downsampleAndEncode .hw buf) := by
  induction bufs generalizing s with
  | nil => exact ⟨s, rfl, h, (List.append_nil _).symm⟩
  | cons buf bufs ih =>
    obtain ⟨t, hrun, hhost, hout⟩ := exists_run_dnBuffer (h.trans List.flatMap_cons)
    obtain ⟨u, hrun', hdone, hout'⟩ := ih hhost
    refine ⟨u, ?_, hdone, by rw [hout', hout, List.flatMap_cons, List.append_assoc]⟩
    rw [List.map_cons, List.sum_cons, run_add hrun, hrun']

end Sys2Proof.Machine
end

section
/-! The items of buffers sent to DECUP (spec/43_decode_upsample.md R116; log entries 3, 4, 5 and 15). -/

namespace Sys2Proof.Machine

/-- The event of a stream item presented to DECUP. -/
def upItem (m : Marked CompandedByte) : HostEvent := .item (encode (.decup m.first m.data))

theorem upBufferEvents_eq (buf : List CompandedByte) : upBufferEvents buf = (markBuffer buf).map upItem := rfl

theorem upAnswers_upItem (m : Marked CompandedByte) :
    upAnswers (upItem m) = [⟨m.first, decodeSample .hw m.data⟩, ⟨false, decodeSample .hw m.data⟩] :=
  upAnswers_item_decup (decode_encode _)

/-- Where only items for DECUP come, an owed copy is emitted next: the next item waits, or there is none. -/
theorem step_of_upItems_of_upPending {items : List (Marked CompandedByte)} {s : State} (h : s.host = items.map upItem)
    (hpending : s.upPending = true) : step s = .next (upRepeat s) := by
  cases items with
  | nil => rw [step_of_host_nil h, upOwnStep_of_upPending hpending]
  | cons m items =>
    have hwait := exec_decup_of_upPending (s := { s with host := items.map upItem }) hpending m.first m.data
    rw [step_of_host_encode h, hwait, present, upRepeat_eq, upRepeat_eq, h]
    rfl

/-- Items presented to DECUP take two steps each: accept and repeat. -/
theorem exists_run_upItems {items : List (Marked CompandedByte)} {s : State} (hready : s.upPending = false)
    (h : s.host = items.map upItem) :
    ∃ hold, run (2 * items.length) s = .next { s with
      host := []
      upOut := s.upOut ++ s.host.flatMap upAnswers
      upHold := hold } := by
  induction items generalizing s with
  | nil =>
    have hhost : s.host = [] := h
    exact ⟨s.upHold, by rw [hhost, List.flatMap_nil, List.append_nil, ← hhost]; rfl⟩
  | cons m items ih =>
    have haccept := (step_of_host_encode h).trans (exec_decup_of_not_upPending
      (s := { s with host := items.map upItem }) hready m.first m.data)
    have hrepeat := step_of_upItems_of_upPending (s := upAccept m.first m.data { s with host := items.map upItem }) rfl rfl
    obtain ⟨hold, hrun⟩ := ih (s := upRepeat (upAccept m.first m.data { s with host := items.map upItem })) rfl rfl
    refine ⟨hold, ?_⟩
    rw [List.length_cons, Nat.mul_succ, run_succ_of_step haccept, run_succ_of_step hrepeat, hrun]
    simp [upRepeat_eq, upAccept_eq, h, upAnswers_upItem, hready]

theorem flatMap_upAnswers_unmarked (bytes : List CompandedByte) :
    ((bytes.map (Marked.mk false)).map upItem).flatMap upAnswers =
      (decodeAndUpsample .hw bytes).map (Marked.mk false) := by
  induction bytes with
  | nil => rfl
  | cons b bytes ih => simp only [List.map_cons, List.flatMap_cons, ih, upAnswers_upItem, decodeAndUpsample_cons,
      List.cons_append, List.nil_append]

/-- Both copies of each byte of a buffer are its output buffer, the first copy of the first byte marked. -/
theorem flatMap_upAnswers_upBufferEvents (buf : List CompandedByte) :
    (upBufferEvents buf).flatMap upAnswers = markBuffer (decodeAndUpsample .hw buf) := by
  cases buf with
  | nil => rfl
  | cons b bytes =>
    rw [upBufferEvents_eq, markBuffer_cons, List.map_cons, List.flatMap_cons, upAnswers_upItem,
      flatMap_upAnswers_unmarked]
    rfl

/-- Settles O27: two steps an item, and both copies of each byte are the buffer-level function's samples. -/
theorem decupBufferRunRefinesR111 : Obligations.DecupBufferRunRefinesR111 := by
  intro s buf hready hhost
  obtain ⟨hold, hrun⟩ := exists_run_upItems hready (hhost.trans (upBufferEvents_eq buf))
  rw [length_markBuffer, hhost, flatMap_upAnswers_upBufferEvents] at hrun
  exact ⟨hold, hrun⟩

theorem exists_run_upBuffers {bufs : List (List CompandedByte)} {s : State} (hready : s.upPending = false)
    (h : s.host = bufs.flatMap upBufferEvents) :
    ∃ t, run (2 * (bufs.map List.length).sum) s = .next t ∧ t.host = [] ∧ t.upPending = false ∧
      t.upOut = s.upOut ++ bufs.flatMap fun buf => markBuffer (decodeAndUpsample .hw buf) := by
  have hitems : s.host = (bufs.flatMap markBuffer).map upItem := by rw [h, List.map_flatMap]; rfl
  have hlength : (bufs.flatMap markBuffer).length = (bufs.map List.length).sum := by simp [List.length_flatMap]
  have hanswers : s.host.flatMap upAnswers = bufs.flatMap fun buf => markBuffer (decodeAndUpsample .hw buf) := by
    simp only [h, List.flatMap_assoc, flatMap_upAnswers_upBufferEvents]
  obtain ⟨hold, hrun⟩ := exists_run_upItems hready hitems
  rw [hlength, hanswers] at hrun
  exact ⟨_, hrun, rfl, hready, rfl⟩

/-- Settles O31: DNENC takes one buffer after the other, each from any state; for DECUP the buffers are one row of items. -/
theorem nothingCarriedBetweenBuffers : Obligations.NothingCarriedBetweenBuffers :=
  ⟨fun _ _ => exists_run_dnBuffers, fun _ _ => exists_run_upBuffers⟩

end Sys2Proof.Machine
end

section
/-! Reset in the middle of a buffer (spec/70_reset_and_hazards.md R142). -/

namespace Sys2Proof.Machine

/-- After a reset event a pair of samples gives the byte of the first, with its marker, whatever waited before. -/
theorem exists_run_rst_pair {s : State} {first : Bool} {x y : LinearSample}
    (h : s.host = .rst none :: [⟨first, x⟩, ⟨false, y⟩].map dnItem) :
    ∃ t, run 3 s = .next t ∧ t.dnOut = s.dnOut ++ [⟨first, encodeSample .hw x⟩] ∧ t.dnPhase = false := by
  have hrun := run_dnItems (s := rstEvent { s with host := [⟨first, x⟩, ⟨false, y⟩].map dnItem }) (rest := [])
    (List.append_nil _).symm
  refine ⟨_, (run_succ_of_step (step_of_host_rst h)).trans hrun, ?_⟩
  simp only [List.foldl_cons, List.foldl_nil, dnAcceptItem]
  rw [dnAccept_dnAccept_eq (.inr rfl)]
  simp

/-- A reset event drops the copy that is owed. -/
theorem exists_run_decup_rst {s : State} {first : Bool} {b : CompandedByte} (hready : s.upPending = false)
    (h : s.host = [.item (encode (.decup first b)), .rst none]) :
    ∃ t, run 3 s = .next t ∧ t.upOut = s.upOut ++ [⟨first, decodeSample .hw b⟩] ∧ t.finished = true := by
  have haccept := (step_of_host_encode h).trans
    (exec_decup_of_not_upPending (s := { s with host := [.rst none] }) hready first b)
  have hrst := step_of_host_rst (s := upAccept first b { s with host := [.rst none] }) (c := none) (rest := []) rfl
  have hidle := step_of_host_nil (s := rstEvent (upAccept first b { s with host := [] })) rfl
  rw [upOwnStep_of_not_upPending (rstEvent_upPending _)] at hidle
  exact ⟨_, (run_succ_of_step haccept).trans ((run_succ_of_step hrst).trans (run_succ_of_step hidle)), rfl, rfl⟩

/-- Settles O36: after the reset event no sample and no copy waits, so the next sample has an even index, and the run has
nothing left to emit. -/
theorem resetInMidBuffer : Obligations.ResetInMidBuffer :=
  ⟨fun _ _ _ _ => exists_run_rst_pair, fun _ _ _ => exists_run_decup_rst⟩

end Sys2Proof.Machine
end
